-- ==== Sys2Proof/Word.lean ====
section
/-! DEFINITION. The word types of the codec block: bytes, byte strings and the fixed-length byte groups
(00_scope.md rules R8, R10, R12). Nothing here computes an effect. -/

namespace Sys2Proof

/-- A Byte is 8 bits (R8); bit 0 is the least significant (R9). -/
abbrev Byte := BitVec 8

/-- The unsigned 16-bit operands of the host packets: `cid`, `cb`, `iv`, `ms` (R91). -/
abbrev Half := BitVec 16

/-- `Dur` as it is carried: a signed 32-bit two's-complement count of milliseconds (R12).
`BitVec.toInt` is the duration it stands for. -/
abbrev Dur := BitVec 32

/-- `Bytes`: a finite byte string, index 0 first (R10). -/
abbrev Bytes := List Byte

/-- `Bytes(2)`, the type of the receive header (R6). -/
structure Bytes2 where
  b0 : Byte
  b1 : Byte
deriving DecidableEq, Repr, Inhabited

/-- `Bytes(3)`: a packed address, a frame tag, the acknowledgement header (R6, R8). -/
structure Bytes3 where
  b0 : Byte
  b1 : Byte
  b2 : Byte
deriving DecidableEq, Repr, Inhabited

/-- The two bytes in index order (R10). -/
def Bytes2.toList (x : Bytes2) : Bytes := [x.b0, x.b1]

/-- The three bytes in index order (R10). -/
def Bytes3.toList (x : Bytes3) : Bytes := [x.b0, x.b1, x.b2]

end Sys2Proof
end

