-- ==== Sys2Proof/Syntax.lean ====
section
/-! DEFINITION. The 24 operations of the host command port, one constructor per row of spec/opcode_table.json
(30_encoding.md rule R92), each with the operands of its packet format (rule R91). -/

namespace Sys2Proof

/-- One operation with its operands. Texts and byte strings are of any length here; `WellFormed` holds them to the
255 bytes a length byte can count. `v`, `tv`, `aen` and `cen` are the one meaningful bit each of their bytes. -/
inductive Instr where
  /-- 0x10 `ADDR.ENC text` (R133) -/
  | addrEnc (text : Bytes)
  /-- 0x11 `ADDR.DEC bytes` (R134) -/
  | addrDec (bytes : Bytes)
  /-- 0x12 `ADDR.UNP6 bytes` (R136) -/
  | addrUnp6 (bytes : Bytes)
  /-- 0x20 `TIME.DEC b` (R151) -/
  | timeDec (b : Byte)
  /-- 0x21 `TIME.ENC dur` (R152) -/
  | timeEnc (dur : Dur)
  /-- 0x22 `TIME.NORM hh, mm, ss, ms` (R155) -/
  | timeNorm (hh : Byte) (mm : Byte) (ss : Byte) (ms : Half)
  /-- 0x30 `CMD.OPC cid` (R171) -/
  | cmdOpc (cid : Half)
  /-- 0x31 `CMD.GRP idx, v` (R172) -/
  | cmdGrp (idx : Byte) (v : Bool)
  /-- 0x32 `CMD.NAME opcode` (R173) -/
  | cmdName (opcode : Byte)
  /-- 0x40 `FRM.ONCE text, cid, dur` (R191) -/
  | frmOnce (text : Bytes) (cid : Half) (dur : Dur)
  /-- 0x41 `FRM.REP text, cid, dur, iv` (R192) -/
  | frmRep (text : Bytes) (cid : Half) (dur : Dur) (iv : Half)
  /-- 0x42 `TX.ONCE text, cid, dur` (R195) -/
  | txOnce (text : Bytes) (cid : Half) (dur : Dur)
  /-- 0x43 `TX.REP text, cid, dur, iv` (R196) -/
  | txRep (text : Bytes) (cid : Half) (dur : Dur) (iv : Half)
  /-- 0x44 `TX.STOP` (R197) -/
  | txStop
  /-- 0x45 `TX.VER` (R198) -/
  | txVer
  /-- 0x46 `ACK.CLS bytes` (R200) -/
  | ackCls (bytes : Bytes)
  /-- 0x50 `RX.PARSE bytes` (R222) -/
  | rxParse (bytes : Bytes)
  /-- 0x51 `RX.POLL` (R225) -/
  | rxPoll
  /-- 0x52 `RX.VER` (R226) -/
  | rxVer
  /-- 0x60 `DSP.ADD cb, fl, a, cmd` with `fl = {aen, cen}` (R241) -/
  | dspAdd (cb : Half) (aen : Bool) (cen : Bool) (a : Bytes3) (cmd : Byte)
  /-- 0x61 `DSP.START` (R243) -/
  | dspStart
  /-- 0x62 `DSP.STOP` (R244) -/
  | dspStop
  /-- 0x63 `DSP.EMIT event` (R246); `dur` is carried even when `tv` is false, where it is ignored (R98) -/
  | dspEmit (a : Bytes3) (opcode : Byte) (cid : Half) (tv : Bool) (dur : Dur)
  /-- 0x70 `SYS.STAT` (R249) -/
  | sysStat
deriving DecidableEq, Repr

end Sys2Proof
end

