-- ==== Sys2Proof/WellFormed.lean ====
section
/-! DEFINITION. Which operations have an operand packet: the byte-string operands of the formats `FS`, `FT1` and
`FT2` are counted by one length byte, so they are at most 255 bytes (30_encoding.md rule R91). Every other operand
is held to its width by its type. -/

namespace Sys2Proof

/-- A byte string one length byte can count (R91: `n` is 0..255). -/
abbrev countable (s : Bytes) : Bool := s.length ≤ 255

/-- The check, as a Bool. -/
def Instr.wellFormed : Instr → Bool
  | .addrEnc text => countable text
  | .addrDec bytes => countable bytes
  | .addrUnp6 bytes => countable bytes
  | .timeDec _ => true
  | .timeEnc _ => true
  | .timeNorm _ _ _ _ => true
  | .cmdOpc _ => true
  | .cmdGrp _ _ => true
  | .cmdName _ => true
  | .frmOnce text _ _ => countable text
  | .frmRep text _ _ _ => countable text
  | .txOnce text _ _ => countable text
  | .txRep text _ _ _ => countable text
  | .txStop => true
  | .txVer => true
  | .ackCls bytes => countable bytes
  | .rxParse bytes => countable bytes
  | .rxPoll => true
  | .rxVer => true
  | .dspAdd _ _ _ _ _ => true
  | .dspStart => true
  | .dspStop => true
  | .dspEmit _ _ _ _ _ => true
  | .sysStat => true

/-- An operation that some operand packet stands for. -/
abbrev Instr.WellFormed (i : Instr) : Prop := i.wellFormed = true

end Sys2Proof
end

