-- ==== Sys2Proof/Decode.lean ====
section
/-! DEFINITION. Operand packets to operations and back (30_encoding.md rules R90 to R93): the big-endian fields, the
eleven formats, the decoder with its rejections by name, the encoder, and the reading of the opcode table's words. -/

namespace Sys2Proof

/-! ### Big-endian fields (R65, R91) -/

/-- A 16-bit field from its two bytes, most significant first. -/
def be16 (b1 b0 : Byte) : Half := b1 ++ b0

/-- A 32-bit field from its four bytes, most significant first. -/
def be32 (b3 b2 b1 b0 : Byte) : Dur := b3 ++ b2 ++ b1 ++ b0

/-- The two bytes of a 16-bit field, most significant first. -/
def be16Bytes (x : Half) : Bytes := [x.extractLsb' 8 8, x.extractLsb' 0 8]

/-- The four bytes of a 32-bit field, most significant first. -/
def be32Bytes (x : Dur) : Bytes :=
  [x.extractLsb' 24 8, x.extractLsb' 16 8, x.extractLsb' 8 8, x.extractLsb' 0 8]

/-! ### Formats -/

/-- The eleven packet formats (R91). -/
inductive Format where
  | F0 | FS | FB | FD | FW | FC | FG | FT1 | FT2 | FL | FE
deriving DecidableEq, Repr

/-- The format an operation code selects (R92); `none` for a code that is not an operation (R99). -/
def formatOf (code : Byte) : Option Format :=
  match code.toNat with
  | 0x10 => some .FS
  | 0x11 => some .FS
  | 0x12 => some .FS
  | 0x20 => some .FB
  | 0x21 => some .FD
  | 0x22 => some .FW
  | 0x30 => some .FC
  | 0x31 => some .FG
  | 0x32 => some .FB
  | 0x40 => some .FT1
  | 0x41 => some .FT2
  | 0x42 => some .FT1
  | 0x43 => some .FT2
  | 0x44 => some .F0
  | 0x45 => some .F0
  | 0x46 => some .FS
  | 0x50 => some .FS
  | 0x51 => some .F0
  | 0x52 => some .F0
  | 0x60 => some .FL
  | 0x61 => some .F0
  | 0x62 => some .F0
  | 0x63 => some .FE
  | 0x70 => some .F0
  | _ => none

/-- Total packet length of a format, `n` being the value of the length byte where it has one (R91). -/
def Format.length (f : Format) (n : Nat) : Nat :=
  match f with
  | .F0 => 1
  | .FS => 2 + n
  | .FB => 2
  | .FD => 5
  | .FW => 6
  | .FC => 3
  | .FG => 3
  | .FT1 => 8 + n
  | .FT2 => 10 + n
  | .FL => 8
  | .FE => 12

/-! ### Decoding -/

/-- Why the packet check refuses a packet (R93). Each of them is answered with `IllegalOperation`. -/
inductive Reject where
  /-- the packet has no byte -/
  | emptyPacket
  /-- `P[0]` is not a code of R92 -/
  | unknownCode (code : Byte)
  /-- a format with a length byte, and the packet ends before it -/
  | noLengthByte
  /-- the packet is not as long as its format says -/
  | wrongLength
  /-- a must-be-zero bit of `v`, `tv` or `fl` is 1 -/
  | reservedBit
deriving DecidableEq, Repr

/-- `F0`: nothing follows the code. -/
def operandsF0 (i : Instr) (ops : Bytes) : Except Reject Instr :=
  match ops with
  | [] => .ok i
  | _ => .error .wrongLength

/-- A length byte `n`, `n` bytes, and `k` bytes after them; answers the two parts. -/
def operandsCounted (k : Nat) (ops : Bytes) : Except Reject (Bytes × Bytes) :=
  match ops with
  | [] => .error .noLengthByte
  | n :: rest =>
    if rest.length = n.toNat + k then .ok (rest.take n.toNat, rest.drop n.toNat)
    else .error .wrongLength

/-- `FS`. -/
def operandsFS (mk : Bytes → Instr) (ops : Bytes) : Except Reject Instr :=
  match operandsCounted 0 ops with
  | .ok (s, _) => .ok (mk s)
  | .error e => .error e

/-- `FB`. -/
def operandsFB (mk : Byte → Instr) (ops : Bytes) : Except Reject Instr :=
  match ops with
  | [b] => .ok (mk b)
  | _ => .error .wrongLength

/-- `FD`. -/
def operandsFD (mk : Dur → Instr) (ops : Bytes) : Except Reject Instr :=
  match ops with
  | [d3, d2, d1, d0] => .ok (mk (be32 d3 d2 d1 d0))
  | _ => .error .wrongLength

/-- `FW`. -/
def operandsFW (mk : Byte → Byte → Byte → Half → Instr) (ops : Bytes) : Except Reject Instr :=
  match ops with
  | [hh, mm, ss, m1, m0] => .ok (mk hh mm ss (be16 m1 m0))
  | _ => .error .wrongLength

/-- `FC`. -/
def operandsFC (mk : Half → Instr) (ops : Bytes) : Except Reject Instr :=
  match ops with
  | [c1, c0] => .ok (mk (be16 c1 c0))
  | _ => .error .wrongLength

/-- `FG`: bits 7:1 of `v` must be 0. -/
def operandsFG (mk : Byte → Bool → Instr) (ops : Bytes) : Except Reject Instr :=
  match ops with
  | [idx, v] => if v.toNat < 2 then .ok (mk idx (v.getLsbD 0)) else .error .reservedBit
  | _ => .error .wrongLength

/-- `FT1`. -/
def operandsFT1 (mk : Bytes → Half → Dur → Instr) (ops : Bytes) : Except Reject Instr :=
  match operandsCounted 6 ops with
  | .ok (text, [c1, c0, d3, d2, d1, d0]) => .ok (mk text (be16 c1 c0) (be32 d3 d2 d1 d0))
  | .ok _ => .error .wrongLength
  | .error e => .error e

/-- `FT2`. -/
def operandsFT2 (mk : Bytes → Half → Dur → Half → Instr) (ops : Bytes) : Except Reject Instr :=
  match operandsCounted 8 ops with
  | .ok (text, [c1, c0, d3, d2, d1, d0, i1, i0]) =>
    .ok (mk text (be16 c1 c0) (be32 d3 d2 d1 d0) (be16 i1 i0))
  | .ok _ => .error .wrongLength
  | .error e => .error e

/-- `FL`: bit 0 of `fl` is `aen`, bit 1 is `cen`, bits 7:2 must be 0. -/
def operandsFL (mk : Half → Bool → Bool → Bytes3 → Byte → Instr) (ops : Bytes) : Except Reject Instr :=
  match ops with
  | [c1, c0, fl, a0, a1, a2, cmd] =>
    if fl.toNat < 4 then
      .ok (mk (be16 c1 c0) (fl.getLsbD 0) (fl.getLsbD 1) ⟨a0, a1, a2⟩ cmd)
    else .error .reservedBit
  | _ => .error .wrongLength

/-- `FE`: bits 7:1 of `tv` must be 0. -/
def operandsFE (mk : Bytes3 → Byte → Half → Bool → Dur → Instr) (ops : Bytes) : Except Reject Instr :=
  match ops with
  | [a0, a1, a2, opcode, c1, c0, tv, d3, d2, d1, d0] =>
    if tv.toNat < 2 then
      .ok (mk ⟨a0, a1, a2⟩ opcode (be16 c1 c0) (tv.getLsbD 0) (be32 d3 d2 d1 d0))
    else .error .reservedBit
  | _ => .error .wrongLength

/-- The packet check and the reading of the operands (R91 to R93), total on any byte string. -/
def decode (p : Bytes) : Except Reject Instr :=
  match p with
  | [] => .error .emptyPacket
  | code :: ops =>
    match code.toNat with
    | 0x10 => operandsFS .addrEnc ops
    | 0x11 => operandsFS .addrDec ops
    | 0x12 => operandsFS .addrUnp6 ops
    | 0x20 => operandsFB .timeDec ops
    | 0x21 => operandsFD .timeEnc ops
    | 0x22 => operandsFW .timeNorm ops
    | 0x30 => operandsFC .cmdOpc ops
    | 0x31 => operandsFG .cmdGrp ops
    | 0x32 => operandsFB .cmdName ops
    | 0x40 => operandsFT1 .frmOnce ops
    | 0x41 => operandsFT2 .frmRep ops
    | 0x42 => operandsFT1 .txOnce ops
    | 0x43 => operandsFT2 .txRep ops
    | 0x44 => operandsF0 .txStop ops
    | 0x45 => operandsF0 .txVer ops
    | 0x46 => operandsFS .ackCls ops
    | 0x50 => operandsFS .rxParse ops
    | 0x51 => operandsF0 .rxPoll ops
    | 0x52 => operandsF0 .rxVer ops
    | 0x60 => operandsFL .dspAdd ops
    | 0x61 => operandsF0 .dspStart ops
    | 0x62 => operandsF0 .dspStop ops
    | 0x63 => operandsFE .dspEmit ops
    | 0x70 => operandsF0 .sysStat ops
    | _ => .error (.unknownCode code)

/-! ### Encoding -/

/-- The byte of a one-bit field: bit 0 the value, bits 7:1 zero (R91). -/
def flagByte (v : Bool) : Byte := if v then 1 else 0

/-- The byte `fl`: bit 0 `aen`, bit 1 `cen`, bits 7:2 zero (R91). -/
def filterByte (aen cen : Bool) : Byte := (if aen then 1 else 0) + (if cen then 2 else 0)

/-- The length byte and the bytes it counts (R91). -/
def counted (s : Bytes) : Bytes := BitVec.ofNat 8 s.length :: s

/-- The operand packet of an operation (R91, R92). -/
def encode (i : Instr) : Bytes :=
  match i with
  | .addrEnc text => 0x10 :: counted text
  | .addrDec bytes => 0x11 :: counted bytes
  | .addrUnp6 bytes => 0x12 :: counted bytes
  | .timeDec b => [0x20, b]
  | .timeEnc dur => 0x21 :: be32Bytes dur
  | .timeNorm hh mm ss ms => [0x22, hh, mm, ss] ++ be16Bytes ms
  | .cmdOpc cid => 0x30 :: be16Bytes cid
  | .cmdGrp idx v => [0x31, idx, flagByte v]
  | .cmdName opcode => [0x32, opcode]
  | .frmOnce text cid dur => 0x40 :: (counted text ++ (be16Bytes cid ++ be32Bytes dur))
  | .frmRep text cid dur iv =>
    0x41 :: (counted text ++ (be16Bytes cid ++ be32Bytes dur ++ be16Bytes iv))
  | .txOnce text cid dur => 0x42 :: (counted text ++ (be16Bytes cid ++ be32Bytes dur))
  | .txRep text cid dur iv =>
    0x43 :: (counted text ++ (be16Bytes cid ++ be32Bytes dur ++ be16Bytes iv))
  | .txStop => [0x44]
  | .txVer => [0x45]
  | .ackCls bytes => 0x46 :: counted bytes
  | .rxParse bytes => 0x50 :: counted bytes
  | .rxPoll => [0x51]
  | .rxVer => [0x52]
  | .dspAdd cb aen cen a cmd => 0x60 :: (be16Bytes cb ++ [filterByte aen cen] ++ a.toList ++ [cmd])
  | .dspStart => [0x61]
  | .dspStop => [0x62]
  | .dspEmit a opcode cid tv dur =>
    0x63 :: (a.toList ++ [opcode] ++ be16Bytes cid ++ [flagByte tv] ++ be32Bytes dur)
  | .sysStat => [0x70]

/-! ### Pseudo-operations, from the document's default arguments (R112) -/

/-- `TX.ONCE a, c` is `TX.ONCE a, c, 0ms`. -/
def pseudoTxOnce (text : Bytes) (cid : Half) : Instr := .txOnce text cid 0

/-- `TX.REP a, c, iv=k` is `TX.REP a, c, 0ms, k`. -/
def pseudoTxRep (text : Bytes) (cid iv : Half) : Instr := .txRep text cid 0 iv

/-- `FRM.ONCE a, c` is `FRM.ONCE a, c, 0ms`. -/
def pseudoFrmOnce (text : Bytes) (cid : Half) : Instr := .frmOnce text cid 0

/-- `FRM.REP a, c, iv=k` is `FRM.REP a, c, 0ms, k`. -/
def pseudoFrmRep (text : Bytes) (cid iv : Half) : Instr := .frmRep text cid 0 iv

/-- `DSP.ADD cb` with the filters that are given: an absent one has its enable bit 0 and its bytes 0x00. -/
def pseudoDspAdd (cb : Half) (addr : Option Bytes3) (cmd : Option Byte) : Instr :=
  .dspAdd cb addr.isSome cmd.isSome (addr.getD ⟨0, 0, 0⟩) (cmd.getD 0)

/-! ### Words of the opcode table -/

/-- The packet that a word of the opcode table stands for: byte `k` of the packet is bits `8k+7 .. 8k` of the word,
every bit above `nbits` is 0, and there are as many bytes as the format of the operation code has with the length
byte the word gives (at least the bytes of the word itself). Assumption log 3. -/
def tablePacket (nbits w : Nat) : Bytes :=
  let word := w % 2 ^ nbits
  let byteAt := fun k => BitVec.ofNat 8 (word / 256 ^ k)
  let size := match formatOf (byteAt 0) with
    | some f => f.length (byteAt 1).toNat
    | none => 1
  (List.range (max size ((nbits + 7) / 8))).map byteAt

/-- The operation the decoder reads from a word of the opcode table, `none` where it refuses. -/
def decodeTableWord (nbits w : Nat) : Option Instr :=
  match decode (tablePacket nbits w) with
  | .ok i => some i
  | .error _ => none

end Sys2Proof
end

