-- ==== Sys2Proof/Config.lean ====
section
/-! DEFINITION. The configuration record `CFG` (00_scope.md rule R6), its well-formedness (rule R7), and the
constants without a body that stand for what the spec leaves open: the configuration of the device at hand and
the free draws of the two adapter reads (20_memory.md rule R68). -/

namespace Sys2Proof

/-- `Class` of a command (R12, R61, R175). -/
inductive CmdClass where
  | simple
  | timed
  | selfTiming
deriving DecidableEq, Repr, Inhabited

/-- `NameRow`, one row of `NAME_ROM` (R61). -/
structure NameRow where
  opcode : Byte
  cls : CmdClass
deriving DecidableEq, Repr, Inhabited

/-- `GroupRow`, one populated slot of `GROUP_ROM` (R62). -/
structure GroupRow where
  opcode : Byte
  cid : Half
deriving DecidableEq, Repr, Inhabited

/-- The two slots of one command group index: variant 0 "without time", variant 1 "with time"; `none` is a
reserved slot (R62). -/
structure GroupPair where
  untimed : Option GroupRow
  timed : Option GroupRow
deriving DecidableEq, Repr, Inhabited

/-- The `digits2` parameter as plain data (R104): one of the two readings the spec names, or any other partial
map from bytes to two decimal digits, listed. Digits are `Fin 10`, so rule R7 (e) holds of every value. -/
inductive DigitReading where
  | bcd
  | divmod
  | listed (rows : List (Byte × (Fin 10 × Fin 10)))
deriving DecidableEq, Repr, Inhabited

/-- `CFG` (R6). `NCMD` is the length of `nameRom`; `nlis = none` is the unbounded listener table. The three `t…`
fields are milliseconds and no rule reads them (R322). -/
structure Cfg where
  tagOnce : Bytes3
  tagRep : Bytes3
  tagStop : Bytes3
  tagVer : Bytes3
  ackHdr : Bytes3
  stOk : Byte
  stFirmware : Byte
  stStopOk : Byte
  stStopNotSent : Byte
  stUnknown : Byte
  stMismatch : Byte
  rxHdr : Bytes2
  nameRom : List NameRow
  groupRom : Vector GroupPair 32
  digits : DigitReading
  nlis : Option Nat
  tRdTx : Nat
  tRdRx : Nat
  tPoll : Nat
deriving DecidableEq, Repr, Inhabited

/-- `CFG` is well formed (R6 for the two ranges, R7 (a) to (d) for the rest; (e) holds by type). A premise of the
claims that need it, never of a step. -/
structure Cfg.WellFormed (c : Cfg) : Prop where
  ncmdRange : 1 ≤ c.nameRom.length ∧ c.nameRom.length ≤ 65536
  nlisRange : ∀ n ∈ c.nlis, 1 ≤ n
  statusesDiffer :
    [c.stOk, c.stFirmware, c.stStopOk, c.stStopNotSent, c.stUnknown, c.stMismatch].Nodup
  opcodesDiffer : (c.nameRom.map (·.opcode)).Nodup
  untimedRows : ∀ p ∈ c.groupRom.toList, ∀ r ∈ p.untimed,
    (c.nameRom[r.cid.toNat]?).map (·.opcode) = some r.opcode ∧
      (c.nameRom[r.cid.toNat]?).map (·.cls) ≠ some CmdClass.timed
  timedRows : ∀ p ∈ c.groupRom.toList, ∀ r ∈ p.timed,
    (c.nameRom[r.cid.toNat]?).map (·.opcode) = some r.opcode ∧
      (c.nameRom[r.cid.toNat]?).map (·.cls) = some CmdClass.timed

/-- The configuration of the device at hand: an OPEN constant (92_eei_decisions.md section 3), so it has no body
and no proof can see a value of it. Assumption log 1. -/
opaque Config.cfg : Cfg

/-- Free draw: what the transmit adapter answers to the `n`-th read for which the state lists no answer (R68 (b),
U18). No body. Assumption log 4. -/
opaque Config.freeTxAnswer : Nat → Option Bytes

/-- Free draw: what the receive adapter answers to the `n`-th read for which the state lists no answer (R68 (b),
U18). No body. Assumption log 4. -/
opaque Config.freeRxAnswer : Nat → Option Bytes

end Sys2Proof
end

