-- ==== Sys2Proof/Machine/State.lean ====
section
/-! DEFINITION. The state of the codec block (10_state.md rules R30 to R38), with the parameter record and the
environment's pending inputs that a step reads (20_memory.md rules R68, R71), and its value right after reset
(70_reset_and_hazards.md rule R300). -/

namespace Sys2Proof.Machine

/-- `Fault`, the closed set of the block's twelve error kinds (60_exceptions.md R270). They are answers to the
host, not stops of the machine: an operation that faults has a next state (R287). -/
inductive FaultKind where
  | invalidAddress
  | invalidCommand
  | unknownCommand
  | unknownCommandGroup
  | unsupportedDuration
  | invalidInterval
  | invalidResponse
  | unknownDataframe
  | mismatchedDataframe
  /-- reserved: no operation raises it (R283) -/
  | deviceNotFound
  | versionNotYetKnown
  | illegalOperation
deriving DecidableEq, Repr

/-- `Result T`: `ok v` or `fault f` (R12). -/
abbrev Result (α : Type) := Except FaultKind α

/-- `AckClass` (R12). -/
inductive AckClass where
  | ok
  | firmware
  | stopOk
  | stopNotSent
deriving DecidableEq, Repr

/-- `Event` (44_receive.md R221). `cid` is 16 bits because `DSP.EMIT` takes an event unchecked (R246). -/
structure Event where
  addr : Bytes3
  opcode : Byte
  cid : Half
  time : Option Dur
deriving DecidableEq, Repr

/-- One entry of the listener table (R36). `addr` is stored but ignored when `aen` is false, `cmd` when `cen` is. -/
structure Listener where
  cb : Half
  aen : Bool
  addr : Bytes3
  cen : Bool
  cmd : Byte
deriving DecidableEq, Repr

/-- The port events `TRACE` records (R13, R38). -/
inductive PortEvent where
  /-- `TXW(f)`: a frame written to the transmit adapter -/
  | txw (frame : Bytes)
  /-- `TXR(a)`: the answer of a transmit-adapter read -/
  | txr (answer : Option Bytes)
  /-- `RXR(a)`: the answer of a receive-adapter read -/
  | rxr (answer : Option Bytes)
  /-- `CB(cb, ev)`: a pair sent to the callback port -/
  | cb (cb : Half) (ev : Event)
  /-- `RES(r)`: a result packet sent to the host -/
  | res (packet : Bytes)
deriving DecidableEq, Repr

/-- Whose step comes next in the interleaving (20_memory.md R71, R72; R300). -/
inductive Turn where
  /-- the host agent presents one operand packet at `HCMD` -/
  | host (packet : Bytes)
  /-- the dispatcher agent is given its turn -/
  | dispatcher
  /-- the environment's `RESET` event -/
  | reset
deriving DecidableEq, Repr

/-- The machine. The first six fields are the architectural state `S` of R30; the others are the model's own. -/
structure State where
  /-- `RUN`: the dispatcher is `Running` (R31) -/
  run : Bool
  /-- `STOP_REQ` (R32) -/
  stopReq : Bool
  /-- `DFAULT`, the code of the fault that ended the polling, or 0 (R33) -/
  dfault : BitVec 4
  /-- `RXVER_VALID` and `RXVER` in one: `none` is `RXVER_VALID = 0` (R34; U22: "model the cell as an option") -/
  rxver : Option Byte
  /-- `LIS` in registration order; `LCOUNT` is its length (R36; U23: "model LIS as a list of length LCOUNT") -/
  lis : List Listener
  /-- `TRACE`, oldest event first; ghost state that no operation reads (R38) -/
  trace : List PortEvent
  /-- `CFG`, the constant parameter of every step (R6, R30); no step changes it. Assumption log 1 -/
  cfg : Cfg
  /-- the interleaving still to come, with the packets the host presents. Assumption log 2 -/
  agenda : List Turn
  /-- answers the transmit adapter will give to the next reads. Assumption log 4 -/
  txAnswers : List (Option Bytes)
  /-- answers the receive adapter will give to the next reads. Assumption log 4 -/
  rxAnswers : List (Option Bytes)
  /-- reads of the transmit adapter made so far, which numbers its free draws. Assumption log 4 -/
  txReads : Nat
  /-- reads of the receive adapter made so far, which numbers its free draws. Assumption log 4 -/
  rxReads : Nat
deriving DecidableEq, Repr

/-- Reasons for which the machine would stop. There is none: every operation is total and no step is stuck
(R78, R310; 93_implementation_defined.md: "Nothing in this hardware is treated as stuck or refuse"). Nobody
raises a value of this type. Assumption log 10. -/
inductive Fault
deriving DecidableEq, Repr

/-- Reasons to refuse an instruction. -/
inductive Refusal where
  /-- raised by an arm of `exec` for an instruction that has no meaning yet (safe: the machine stops); no arm
  raises it in this model -/
  | notModelled (mnemonic : String)
deriving DecidableEq, Repr

/-- The machine right after `RESET` (R45, R300), with nothing pending from the outside. `RXVER` and the unused
entries of `LIS` are absent, not zero; the configuration is the open constant (R302 (e)). -/
def State.reset : State where
  run := false
  stopReq := false
  dfault := 0
  rxver := none
  lis := []
  trace := []
  cfg := Config.cfg
  agenda := []
  txAnswers := []
  rxAnswers := []
  txReads := 0
  rxReads := 0

end Sys2Proof.Machine
end

