-- ==== Sys2Proof/Machine/Operands.lean ====
section
/-! DEFINITION. How values are laid out in result packets and on the callback port (30_encoding.md rules R94 to
R98; 60_exceptions.md rule R271), and how a receive-side byte is read as two decimal digits (rule R104). -/

namespace Sys2Proof.Machine

/-- The 4-bit fault code, as `DFAULT` holds it (R33, R271). -/
def faultCode (f : FaultKind) : BitVec 4 :=
  match f with
  | .invalidAddress => 0x1
  | .invalidCommand => 0x2
  | .unknownCommand => 0x3
  | .unknownCommandGroup => 0x4
  | .unsupportedDuration => 0x5
  | .invalidInterval => 0x6
  | .invalidResponse => 0x7
  | .unknownDataframe => 0x8
  | .mismatchedDataframe => 0x9
  | .deviceNotFound => 0xA
  | .versionNotYetKnown => 0xB
  | .illegalOperation => 0xC

/-- The result packet of an operation: status 0x00 and the payload, or the fault code alone (R94). -/
def resultPacket (r : Result Bytes) : Bytes :=
  match r with
  | .ok payload => 0x00 :: payload
  | .error f => [(faultCode f).setWidth 8]

/-- `AckClass` in a result packet (R96). -/
def ackClassCode (c : AckClass) : Byte :=
  match c with
  | .ok => 0x00
  | .firmware => 0x01
  | .stopOk => 0x02
  | .stopNotSent => 0x03

/-- `Class` in a result packet (R97). -/
def classCode (c : CmdClass) : Byte :=
  match c with
  | .simple => 0x00
  | .timed => 0x01
  | .selfTiming => 0x02

/-- A duration in a result packet: 32 bits, big-endian (R65, R95). No operation produces a negative one. -/
def durBytes (ms : Nat) : Bytes := be32Bytes (BitVec.ofNat 32 ms)

/-- A count in a result packet: 16 bits, saturating at 65535 (R42, R95). -/
def countBytes (n : Nat) : Bytes := be16Bytes (BitVec.ofNat 16 (min n 65535))

/-- The 11 bytes of an event (R98): `tv` is 0 and the four time bytes are 0x00 when the time is absent. -/
def eventBytes (ev : Event) : Bytes :=
  ev.addr.toList ++ [ev.opcode] ++ be16Bytes ev.cid ++ [flagByte ev.time.isSome] ++
    be32Bytes (ev.time.getD 0)

/-- A transfer on the callback port: the 16-bit `cb` and the 11 bytes of the event (R98). -/
def callbackBytes (cb : Half) (ev : Event) : Bytes := be16Bytes cb ++ eventBytes ev

/-- `digits2_BCD` (R104): packed decimal. -/
def digits2BCD (b : Byte) : Option (Fin 10 × Fin 10) :=
  let hi := (b.extractLsb' 4 4).toNat
  let lo := (b.extractLsb' 0 4).toNat
  if h : hi < 10 ∧ lo < 10 then some (⟨hi, h.1⟩, ⟨lo, h.2⟩) else none

/-- `digits2_DIVMOD` (R104): the decimal expansion of a value up to 99. -/
def digits2DIVMOD (b : Byte) : Option (Fin 10 × Fin 10) :=
  if h : b.toNat < 100 then
    some (⟨b.toNat / 10, by omega⟩, ⟨b.toNat % 10, Nat.mod_lt _ (by decide)⟩)
  else none

/-- `digits2` of the configuration: the tens digit and the ones digit of a byte (R104). -/
def digits2 (c : Cfg) (b : Byte) : Option (Fin 10 × Fin 10) :=
  match c.digits with
  | .bcd => digits2BCD b
  | .divmod => digits2DIVMOD b
  | .listed rows => rows.lookup b

end Sys2Proof.Machine
end

