-- ==== Sys2Proof/Machine/Flags.lean ====
section
/-! DEFINITION. The status flags (10_state.md rule R41): the `STATUS` word (rule R42) and the dispatcher's run flags
(45_dispatcher.md rules R243, R244, R247, R251). No codec operation has a flag as a side effect. -/

namespace Sys2Proof.Machine

/-- `LCOUNT`, the fill count of the listener table (R36). -/
def lcount (s : State) : Nat := s.lis.length

/-- Byte 0 of `STATUS`: `DFAULT` in bits 7:4, bit 3 reserved and 0, `RXVER_VALID`, `STOP_REQ`, `RUN` (R42). -/
def statusByte0 (s : State) : Byte :=
  s.dfault ++ (BitVec.ofBool false ++ BitVec.ofBool s.rxver.isSome ++
    BitVec.ofBool s.stopReq ++ BitVec.ofBool s.run)

/-- The 4 bytes of `STATUS`: the flags, `RXVER` or 0x00, and `LCOUNT` saturated to 16 bits (R42). -/
def statusBytes (s : State) : Bytes :=
  [statusByte0 s, s.rxver.getD 0x00] ++ countBytes (lcount s)

/-- The dispatcher becomes `Running` (R243). -/
def startRunning (s : State) : State := { s with run := true, stopReq := false, dfault := 0 }

/-- A stop is requested if the dispatcher is `Running`; else nothing changes (R244). -/
def requestStop (s : State) : State := { s with stopReq := s.run || s.stopReq }

/-- The dispatcher observes the stop request (R247). -/
def observeStop (s : State) : State := { s with run := false, stopReq := false }

/-- The dispatcher ends on a fault, which is latched (R247, R288). -/
def latchFault (f : FaultKind) (s : State) : State :=
  { s with run := false, stopReq := false, dfault := faultCode f }

/-- The version cell after a successful parse: `RXVER <- v`, `RXVER_VALID <- 1` (R224). -/
def setRxver (v : Byte) (s : State) : State := { s with rxver := some v }

end Sys2Proof.Machine
end

