-- ==== Sys2Proof/Machine/Ops.lean ====
section
/-! DEFINITION. The shared operations: the port primitives (00_scope.md rule R13), the delivery of a result or a
fault (60_exceptions.md rule R287), the two table reads, the listener table, the reset event, and the taking of
a turn (20_memory.md rules R71, R72). -/

namespace Sys2Proof.Machine

/-! ### Ports -/

/-- Port events are appended to `TRACE` in the order they happen (R38). -/
def emit (es : List PortEvent) (s : State) : State := { s with trace := s.trace ++ es }

/-- `TxWrite(f)`: one indivisible transfer of a whole frame (R13, R68 (a)). -/
def txWrite (f : Bytes) (s : State) : State := emit [.txw f] s

/-- An adapter's answer cut to the bytes the read asked for (R68 (b): "any length from 0 up to the request"). -/
def clip (request : Nat) (a : Option Bytes) : Option Bytes := a.map (List.take request)

/-- What the transmit adapter answers to the next read of 5 bytes: the first pending answer, or the free draw
(R68 (b)). -/
def txAnswer (s : State) : Option Bytes :=
  clip 5 ((s.txAnswers.head?).getD (Config.freeTxAnswer s.txReads))

/-- The state after `TxRead()`: the answer is consumed and recorded (R13, R68 (c)). -/
def afterTxRead (s : State) : State :=
  emit [.txr (txAnswer s)] { s with txAnswers := s.txAnswers.tail, txReads := s.txReads + 1 }

/-- What the receive adapter answers to the next read of 13 bytes: the first pending answer, or the free draw
(R68 (b)). -/
def rxAnswer (s : State) : Option Bytes :=
  clip 13 ((s.rxAnswers.head?).getD (Config.freeRxAnswer s.rxReads))

/-- The state after `RxRead()`: the answer is consumed and recorded (R13, R68 (c)). -/
def afterRxRead (s : State) : State :=
  emit [.rxr (rxAnswer s)] { s with rxAnswers := s.rxAnswers.tail, rxReads := s.rxReads + 1 }

/-! ### Results and faults

An operation that faults puts its code on `HRES`, writes no state and ends (R287). There is no saved context, no
handler and no mode, so taking a fault is this one delivery and there is nothing to return from (R289). -/

/-- Exactly one result packet answers each operand packet (R94). -/
def answer (r : Result Bytes) (s : State) : State := emit [.res (resultPacket r)] s

/-- A fault reported to the host (R287). -/
def raise (f : FaultKind) (s : State) : State := answer (.error f) s

/-! ### The constant tables (R60 to R63) -/

/-- `NAME_ROM[cid]`, `none` when `cid >= NCMD` (R61). -/
def nameRow (c : Cfg) (cid : Half) : Option NameRow := c.nameRom[cid.toNat]?

/-- `GROUP_ROM[idx][v]`, `none` for a reserved slot and for an index above 31, which has no slot (R62, R109). -/
def groupSlot (c : Cfg) (idx : Nat) (v : Bool) : Option GroupRow :=
  match c.groupRom[idx]? with
  | some p => if v then p.timed else p.untimed
  | none => none

/-! ### The listener table -/

/-- Whether `DSP.ADD` finds no free entry: `LCOUNT >= NLIS`, never when `NLIS` is unbounded (R241). -/
def tableFull (s : State) : Bool :=
  match s.cfg.nlis with
  | some n => n ≤ lcount s
  | none => false

/-- `LIS[LCOUNT] <- e; LCOUNT <- LCOUNT + 1`, one atomic step (R64). -/
def appendListener (e : Listener) (s : State) : State := { s with lis := s.lis ++ [e] }

/-- `Tier(e)` (R242). -/
def tier (e : Listener) : Nat :=
  match e.aen, e.cen with
  | true, true => 0
  | true, false => 1
  | false, true => 2
  | false, false => 3

/-- `Match(e, ev)` (R242). -/
def listens (e : Listener) (ev : Event) : Bool :=
  (!e.aen || e.addr == ev.addr) && (!e.cen || e.cmd == ev.opcode)

/-- The entries `Dispatch(ev)` invokes, in its order: tier by tier, and within a tier in registration order (R245). -/
def matching (lis : List Listener) (ev : Event) : List Listener :=
  [0, 1, 2, 3].flatMap fun t => lis.filter fun e => tier e == t && listens e ev

/-- `Dispatch(ev)`: one `Invoke` per matching entry; no other state is written (R245). -/
def dispatch (ev : Event) (s : State) : State :=
  emit ((matching s.lis ev).map fun e => .cb e.cb ev) s

/-- The key of the document's registry under which an entry stands: its filters, where present (R37). -/
def listenerKey (e : Listener) : Option Bytes3 × Option Byte :=
  (if e.aen then some e.addr else none, if e.cen then some e.cmd else none)

/-- The four lookup keys of an event in specificity order (R242). -/
def eventKeys (ev : Event) : List (Option Bytes3 × Option Byte) :=
  [(some ev.addr, some ev.opcode), (some ev.addr, none), (none, some ev.opcode), (none, none)]

/-! ### Reset and turns -/

/-- The `RESET` event (R300): the table of R45. `CFG` is untouched, and what belongs to the environment (the turns
to come, the adapters' answers) is not reached (R304). -/
def resetEvent (s : State) : State :=
  { s with run := false, stopReq := false, dfault := 0, rxver := none, lis := [], trace := [] }

/-- The host presents a packet as the very next step. -/
def presentPacket (p : Bytes) (s : State) : State := { s with agenda := .host p :: s.agenda }

end Sys2Proof.Machine
end

