-- ==== Sys2Proof/Machine/Address.lean ====
section
/-! DEFINITION. The address codec: `ADDR.ENC`, `ADDR.DEC`, `ADDR.UNP6` (40_address_codec.md). -/

namespace Sys2Proof.Machine

/-- `GroupEnc(d0, d1, d2, d3)`: the digits folded left to right, two bits each (R131). -/
def groupEnc (d0 d1 d2 d3 : Nat) : Byte :=
  BitVec.ofNat 8 ([d0, d1, d2, d3].foldl (fun acc d => acc * 4 + (d - 1)) 0)

/-- Digit `p` of a packed group, `p = 0` the first: the 2-bit pair plus one (R9, R131). -/
def groupDigit (b : Byte) (p : Nat) : Nat := (b.extractLsb' (6 - 2 * p) 2).toNat + 1

/-- The hyphen, 0x2D (R100). -/
def hyphen : Byte := 0x2D

/-- A digit character, 0x31 to 0x34 (R100). -/
def isDigitChar (c : Byte) : Bool := 0x31 ≤ c.toNat && c.toNat ≤ 0x34

/-- The digit value of a digit character (R100). -/
def digitValue (c : Byte) : Nat := c.toNat - 0x30

/-- The digit character of a digit value (R100). -/
def digitChar (d : Nat) : Byte := BitVec.ofNat 8 (0x30 + d)

/-- A text split at every hyphen: `k` hyphens give `k + 1` groups, some perhaps empty (R132). -/
def splitHyphen (t : Bytes) : List Bytes :=
  match t with
  | [] => [[]]
  | c :: rest =>
    if c = hyphen then [] :: splitHyphen rest
    else
      match splitHyphen rest with
      | [] => [[c]]
      | g :: gs => (c :: g) :: gs

/-- One group of the text: exactly four digit characters (R132). -/
def textGroup (g : Bytes) : Result Byte :=
  match g with
  | [c0, c1, c2, c3] =>
    if isDigitChar c0 && isDigitChar c1 && isDigitChar c2 && isDigitChar c3 then
      .ok (groupEnc (digitValue c0) (digitValue c1) (digitValue c2) (digitValue c3))
    else .error .invalidAddress
  | _ => .error .invalidAddress

/-- `AddrEnc(t)` (R132). -/
def addrEnc (t : Bytes) : Result Bytes3 :=
  match splitHyphen t with
  | [g0, g1, g2] =>
    match textGroup g0, textGroup g1, textGroup g2 with
    | .ok a0, .ok a1, .ok a2 => .ok ⟨a0, a1, a2⟩
    | _, _, _ => .error .invalidAddress
  | _ => .error .invalidAddress

/-- The four digit characters of a packed group (R134). -/
def groupText (b : Byte) : Bytes := [0, 1, 2, 3].map fun p => digitChar (groupDigit b p)

/-- The 14 text bytes of a packed address (R134). -/
def addrText (a : Bytes3) : Bytes :=
  groupText a.b0 ++ [hyphen] ++ groupText a.b1 ++ [hyphen] ++ groupText a.b2

/-- `AddrDec(s)` (R134). -/
def addrDec (s : Bytes) : Result Bytes :=
  match s with
  | [b0, b1, b2] => .ok (addrText ⟨b0, b1, b2⟩)
  | _ => .error .invalidAddress

/-- One address group from its two digit pairs; a digit outside 1..4 is no address (R136). -/
def pairGroup (hi lo : Fin 10 × Fin 10) : Result Byte :=
  if [hi.1, hi.2, lo.1, lo.2].all fun d => 1 ≤ d.val && d.val ≤ 4 then
    .ok (groupEnc hi.1 hi.2 lo.1 lo.2)
  else .error .invalidAddress

/-- The second half of `AddrUnp6`: the six readings, once all of them are known (R136). -/
def unpackPairs (p0 p1 p2 p3 p4 p5 : Fin 10 × Fin 10) : Result Bytes3 :=
  match pairGroup p0 p1, pairGroup p2 p3, pairGroup p4 p5 with
  | .ok a0, .ok a1, .ok a2 => .ok ⟨a0, a1, a2⟩
  | _, _, _ => .error .invalidAddress

/-- `AddrUnp6(s)`: the width, then all six decimal readings, then the digit ranges (R136). -/
def addrUnp6 (c : Cfg) (s : Bytes) : Result Bytes3 :=
  match s with
  | [b0, b1, b2, b3, b4, b5] =>
    match digits2 c b0, digits2 c b1, digits2 c b2, digits2 c b3, digits2 c b4, digits2 c b5 with
    | some p0, some p1, some p2, some p3, some p4, some p5 => unpackPairs p0 p1 p2 p3 p4 p5
    | _, _, _, _, _, _ => .error .invalidResponse
  | _ => .error .invalidAddress

/-- `ADDR.ENC text` (R133). -/
def execAddrEnc (text : Bytes) (s : State) : Host.Outcome State Fault Refusal :=
  .next (answer ((addrEnc text).map Bytes3.toList) s)

/-- `ADDR.DEC bytes` (R134). -/
def execAddrDec (bytes : Bytes) (s : State) : Host.Outcome State Fault Refusal :=
  .next (answer (addrDec bytes) s)

/-- `ADDR.UNP6 bytes` (R136). -/
def execAddrUnp6 (bytes : Bytes) (s : State) : Host.Outcome State Fault Refusal :=
  .next (answer ((addrUnp6 s.cfg bytes).map Bytes3.toList) s)

end Sys2Proof.Machine
end

