-- ==== Sys2Proof/Machine/Command.lean ====
section
/-! DEFINITION. The command opcode lookup engine: `CMD.OPC`, `CMD.GRP`, `CMD.NAME` (42_command_table.md). -/

namespace Sys2Proof.Machine

/-- `OpcodeFor(cid)` (R171). -/
def opcodeFor (c : Cfg) (cid : Half) : Result (Byte × CmdClass) :=
  match nameRow c cid with
  | some row => .ok (row.opcode, row.cls)
  | none => .error .unknownCommand

/-- `LookupGroup(idx, v)` (R172). -/
def lookupGroup (c : Cfg) (idx : Nat) (v : Bool) : Result (Byte × Half) :=
  match groupSlot c idx v with
  | some row => .ok (row.opcode, row.cid)
  | none => .error .unknownCommandGroup

/-- `NameFor(opcode)` (R173): the row with that opcode, which R7 (b) makes unique; without R7 (b), the first
(assumption log 7). -/
def nameFor (c : Cfg) (opcode : Byte) : Result Half :=
  match c.nameRom.findIdx? (fun row => row.opcode == opcode) with
  | some cid => .ok (BitVec.ofNat 16 cid)
  | none => .error .invalidCommand

/-- `CMD.OPC cid` (R171). -/
def execCmdOpc (cid : Half) (s : State) : Host.Outcome State Fault Refusal :=
  .next (answer ((opcodeFor s.cfg cid).map fun r => [r.1, classCode r.2]) s)

/-- `CMD.GRP idx, v` (R172). -/
def execCmdGrp (idx : Byte) (v : Bool) (s : State) : Host.Outcome State Fault Refusal :=
  .next (answer ((lookupGroup s.cfg idx.toNat v).map fun r => r.1 :: be16Bytes r.2) s)

/-- `CMD.NAME opcode` (R173). -/
def execCmdName (opcode : Byte) (s : State) : Host.Outcome State Fault Refusal :=
  .next (answer ((nameFor s.cfg opcode).map be16Bytes) s)

end Sys2Proof.Machine
end

