-- ==== Sys2Proof/Machine/Receive.lean ====
section
/-! DEFINITION. The frame decoder and the receive operations: `RX.PARSE`, `RX.POLL`, `RX.VER` (44_receive.md). -/

namespace Sys2Proof.Machine

/-- The value of two decimal digits (R108 (b)). -/
def twoDigits (p : Fin 10 × Fin 10) : Nat := 10 * p.1.val + p.2.val

/-- The count `N` of a time field: every digit but the flag digit, 0..99999 (R108 (c)). -/
def timeFieldCount (p0 p1 p2 : Fin 10 × Fin 10) : Nat :=
  p0.2.val * 10000 + p1.1.val * 1000 + p1.2.val * 100 + p2.1.val * 10 + p2.2.val

/-- The event of a body whose ten readings are known: address digits, then the group lookup with the variant the
flag digit selects, then the time (R222). -/
def readEvent (c : Cfg) (p0 p1 p2 p3 p4 p5 p6 p7 p8 p9 : Fin 10 × Fin 10) : Result Event := do
  let addr ← unpackPairs p0 p1 p2 p3 p4 p5
  let timed := p7.1.val == 1
  let (opcode, cid) ← lookupGroup c (twoDigits p6) timed
  return { addr, opcode, cid,
           time := if timed then some (BitVec.ofNat 32 (timeFieldCount p7 p8 p9 * 250)) else none }

/-- `ParseEvent(a)`: absent read, length, header, the ten decimal readings, then the event; the version byte is the
last one, taken as it is (R222). -/
def parseEvent (c : Cfg) (a : Option Bytes) : Result (Event × Byte) :=
  match a with
  | some [h0, h1, b0, b1, b2, b3, b4, b5, b6, b7, b8, b9, v] =>
    if Bytes2.mk h0 h1 = c.rxHdr then
      match digits2 c b0, digits2 c b1, digits2 c b2, digits2 c b3, digits2 c b4, digits2 c b5,
          digits2 c b6, digits2 c b7, digits2 c b8, digits2 c b9 with
      | some p0, some p1, some p2, some p3, some p4, some p5, some p6, some p7, some p8, some p9 =>
        (readEvent c p0 p1 p2 p3 p4 p5 p6 p7 p8 p9).map fun ev => (ev, v)
      | _, _, _, _, _, _, _, _, _, _ => .error .invalidResponse
    else .error .invalidResponse
  | _ => .error .invalidResponse

/-- A parse for the host: the version cell is written exactly when an event is returned (R222, R224). -/
def receive (a : Option Bytes) (s : State) : State :=
  match parseEvent s.cfg a with
  | .ok (ev, v) => answer (.ok (eventBytes ev)) (setRxver v s)
  | .error f => raise f s

/-- `RX.PARSE bytes` (R222). -/
def execRxParse (bytes : Bytes) (s : State) : Host.Outcome State Fault Refusal :=
  .next (receive (some bytes) s)

/-- `RX.POLL`: one read, then a parse; it does not dispatch (R225). -/
def execRxPoll (s : State) : Host.Outcome State Fault Refusal :=
  .next (receive (rxAnswer s) (afterRxRead s))

/-- `RX.VER` (R226). -/
def execRxVer (s : State) : Host.Outcome State Fault Refusal :=
  .next (answer (match s.rxver with
    | some v => .ok [v]
    | none => .error .versionNotYetKnown) s)

end Sys2Proof.Machine
end

