-- ==== Sys2Proof/Machine/Dispatcher.lean ====
section
/-! DEFINITION. The event dispatcher: `DSP.ADD`, `DSP.START`, `DSP.STOP`, `DSP.EMIT`, `SYS.STAT` and the dispatcher
agent's step `DSP.STEP` (45_dispatcher.md). -/

namespace Sys2Proof.Machine

/-- `DSP.ADD cb, fl, a, cmd`: the answer is the index of the new entry, bits 15:8 and 7:0 (R241). -/
def execDspAdd (cb : Half) (aen cen : Bool) (a : Bytes3) (cmd : Byte) (s : State) :
    Host.Outcome State Fault Refusal :=
  .next (if tableFull s then raise .illegalOperation s
    else answer (.ok (be16Bytes (BitVec.ofNat 16 (lcount s))))
      (appendListener { cb, aen, addr := a, cen, cmd } s))

/-- `DSP.START` (R243). -/
def execDspStart (s : State) : Host.Outcome State Fault Refusal :=
  .next (if s.run then raise .illegalOperation s else answer (.ok []) (startRunning s))

/-- `DSP.STOP` (R244). -/
def execDspStop (s : State) : Host.Outcome State Fault Refusal :=
  .next (answer (.ok []) (requestStop s))

/-- The event of a `DSP.EMIT` packet: the four time bytes are ignored when `tv` is 0 (R98, R246). -/
def emittedEvent (a : Bytes3) (opcode : Byte) (cid : Half) (tv : Bool) (dur : Dur) : Event :=
  { addr := a, opcode, cid, time := if tv then some dur else none }

/-- `DSP.EMIT event`: the answer is the number of callbacks invoked (R246). -/
def execDspEmit (a : Bytes3) (opcode : Byte) (cid : Half) (tv : Bool) (dur : Dur) (s : State) :
    Host.Outcome State Fault Refusal :=
  .next (answer (.ok (countBytes (matching s.lis (emittedEvent a opcode cid tv dur)).length))
    (dispatch (emittedEvent a opcode cid tv dur) s))

/-- `SYS.STAT` (R249). -/
def execSysStat (s : State) : Host.Outcome State Fault Refusal :=
  .next (answer (.ok (statusBytes s)) s)

/-- What the poll loop does with the outcome of a parse: dispatch the event, swallow `InvalidResponse`, end on any
other fault (R247, R288). -/
def pollOutcome (r : Result (Event × Byte)) (s : State) : State :=
  match r with
  | .ok (ev, v) => dispatch ev (setRxver v s)
  | .error .invalidResponse => s
  | .error f => latchFault f s

/-- `DSP.STEP`, one iteration of the poll loop, for a `Running` dispatcher: the stop request is looked at before the
read (R247). -/
def dispatcherStep (s : State) : State :=
  if s.stopReq then observeStop s
  else pollOutcome (parseEvent s.cfg (rxAnswer s)) (afterRxRead s)

end Sys2Proof.Machine
end

