-- ==== Sys2Proof/Machine/Time.lean ====
section
/-! DEFINITION. The time codec: `TIME.DEC`, `TIME.ENC`, `TIME.NORM` (41_time_codec.md). Durations are exact integers
of milliseconds (rule R150). -/

namespace Sys2Proof.Machine

/-- The exponent nibble `b[7:4]` of a time byte (R102). -/
def timeExponent (b : Byte) : Nat := (b.extractLsb' 4 4).toNat

/-- The count nibble `b[3:0]` of a time byte (R102). -/
def timeCount (b : Byte) : Nat := (b.extractLsb' 0 4).toNat

/-- `TimeDec(b)`: `(l << h) * 250` milliseconds (R151). -/
def timeDec (b : Byte) : Nat := (timeCount b <<< timeExponent b) * 250

/-- The exponent `TimeEnc` chooses for `d` milliseconds: 0 below 2000, else `K - 1` for the unique `K` with
`1000 * 2^K <= d < 1000 * 2^(K+1)` (R152); `K` is the index of the highest set bit of `d div 1000` (R11). -/
def encExponent (d : Nat) : Nat := if d < 2000 then 0 else Nat.log2 (d / 1000) - 1

/-- `TimeEnc(d)` (R152). -/
def timeEnc (d : Int) : Result Byte :=
  if d < 0 ∨ 15360000 < d then .error .unsupportedDuration
  else
    let n := d.toNat
    let h := encExponent n
    .ok (BitVec.ofNat 8 (h * 16 + n / (250 <<< h)))

/-- `TimeNorm(hh, mm, ss, ms)`: the sub-second part snapped to 250 ms, a remainder above 125 going up (R155). -/
def timeNorm (hh mm ss : Byte) (ms : Half) : Result Nat :=
  if 59 < mm.toNat ∨ 59 < ss.toNat ∨ 999 < ms.toNat then .error .unsupportedDuration
  else
    let whole := (hh.toNat * 3600 + mm.toNat * 60 + ss.toNat) * 1000
    let q := ms.toNat / 250
    let r := ms.toNat % 250
    .ok (whole + (if 125 < r then q + 1 else q) * 250)

/-- `TIME.DEC b` (R151). -/
def execTimeDec (b : Byte) (s : State) : Host.Outcome State Fault Refusal :=
  .next (answer (.ok (durBytes (timeDec b))) s)

/-- `TIME.ENC dur` (R152). -/
def execTimeEnc (dur : Dur) (s : State) : Host.Outcome State Fault Refusal :=
  .next (answer ((timeEnc dur.toInt).map fun b => [b]) s)

/-- `TIME.NORM hh, mm, ss, ms` (R155). -/
def execTimeNorm (hh mm ss : Byte) (ms : Half) (s : State) : Host.Outcome State Fault Refusal :=
  .next (answer ((timeNorm hh mm ss ms).map durBytes) s)

end Sys2Proof.Machine
end

