-- ==== Sys2Proof/Machine/Transmit.lean ====
section
/-! DEFINITION. The frame encoder and the transmit operations: `FRM.ONCE`, `FRM.REP`, `TX.ONCE`, `TX.REP`, `TX.STOP`,
`TX.VER`, `ACK.CLS` (43_transmit.md). -/

namespace Sys2Proof.Machine

/-- The time byte of a send frame: the encoded duration of a `TIMED` command, else 0x00 (R190). -/
def timeByte (cls : CmdClass) (encoded : Byte) : Byte := if cls = .timed then encoded else 0x00

/-- What both send frames carry after their tag, `A ++ [opc, tb]`, with the checks in their order: address, command,
duration (R191, R192). -/
def frameBody (c : Cfg) (text : Bytes) (cid : Half) (dur : Int) : Result Bytes := do
  let a ← addrEnc text
  let (opc, cls) ← opcodeFor c cid
  let tb ← timeEnc dur
  return a.toList ++ [opc, timeByte cls tb]

/-- `BuildOnce(text, cid, dur)` (R191). -/
def buildOnce (c : Cfg) (text : Bytes) (cid : Half) (dur : Int) : Result Bytes := do
  let body ← frameBody c text cid dur
  return c.tagOnce.toList ++ body

/-- The repeat interval as a frame byte, 1..255 (R192). -/
def intervalByte (iv : Nat) : Result Byte :=
  if iv < 1 ∨ 255 < iv then .error .invalidInterval else .ok (BitVec.ofNat 8 iv)

/-- `BuildRep(text, cid, dur, iv)` (R192). -/
def buildRep (c : Cfg) (text : Bytes) (cid : Half) (dur : Int) (iv : Nat) : Result Bytes := do
  let body ← frameBody c text cid dur
  let b ← intervalByte iv
  return c.tagRep.toList ++ body ++ [b]

/-- The class of a status byte, or the fault it stands for (R200). -/
def ackStatus (c : Cfg) (st : Byte) : Result AckClass :=
  if st = c.stOk then .ok .ok
  else if st = c.stFirmware then .ok .firmware
  else if st = c.stStopOk then .ok .stopOk
  else if st = c.stStopNotSent then .ok .stopNotSent
  else if st = c.stUnknown then .error .unknownDataframe
  else if st = c.stMismatch then .error .mismatchedDataframe
  else .error .invalidResponse

/-- `AckClassify(a)`: absent, length, header, status, in that order; the trailer is returned as it is (R200). -/
def ackClassify (c : Cfg) (a : Option Bytes) : Result (AckClass × Byte) :=
  match a with
  | some [h0, h1, h2, st, tr] =>
    if Bytes3.mk h0 h1 h2 = c.ackHdr then (ackStatus c st).map fun cls => (cls, tr)
    else .error .invalidResponse
  | _ => .error .invalidResponse

/-- The state after the port transfers of `Exchange(f)`: one write, then one read (R199). -/
def afterExchange (f : Bytes) (s : State) : State := afterTxRead (txWrite f s)

/-- The classification `Exchange(f)` returns; the frame does not enter it (R199, R313). -/
def exchangeResult (s : State) : Result (AckClass × Byte) := ackClassify s.cfg (txAnswer s)

/-- A transmit operation: a frame that could not be built ends it with no port transfer; otherwise the exchange, and
the result its classification gives (R195 to R198). -/
def transmit (frame : Result Bytes) (payload : AckClass × Byte → Result Bytes) (s : State) : State :=
  match frame with
  | .error f => raise f s
  | .ok f => answer (exchangeResult s >>= payload) (afterExchange f s)

/-- The payload `[code of class, trailer]` (R95). -/
def ackPayload (r : AckClass × Byte) : Result Bytes := .ok [ackClassCode r.1, r.2]

/-- The payload of `TX.VER`: the class must be `FIRMWARE` and the trailer must read as two digits (R198). -/
def versionPayload (c : Cfg) (r : AckClass × Byte) : Result Bytes :=
  if r.1 = .firmware then
    match digits2 c r.2 with
    | some (x, y) => .ok [r.2, BitVec.ofNat 8 x.val, BitVec.ofNat 8 y.val]
    | none => .error .invalidResponse
  else .error .invalidResponse

/-- `FRM.ONCE text, cid, dur` (R191). -/
def execFrmOnce (text : Bytes) (cid : Half) (dur : Dur) (s : State) :
    Host.Outcome State Fault Refusal :=
  .next (answer (buildOnce s.cfg text cid dur.toInt) s)

/-- `FRM.REP text, cid, dur, iv` (R192). -/
def execFrmRep (text : Bytes) (cid : Half) (dur : Dur) (iv : Half) (s : State) :
    Host.Outcome State Fault Refusal :=
  .next (answer (buildRep s.cfg text cid dur.toInt iv.toNat) s)

/-- `TX.ONCE text, cid, dur` (R195). -/
def execTxOnce (text : Bytes) (cid : Half) (dur : Dur) (s : State) :
    Host.Outcome State Fault Refusal :=
  .next (transmit (buildOnce s.cfg text cid dur.toInt) ackPayload s)

/-- `TX.REP text, cid, dur, iv` (R196). -/
def execTxRep (text : Bytes) (cid : Half) (dur : Dur) (iv : Half) (s : State) :
    Host.Outcome State Fault Refusal :=
  .next (transmit (buildRep s.cfg text cid dur.toInt iv.toNat) ackPayload s)

/-- `TX.STOP` (R193, R197). -/
def execTxStop (s : State) : Host.Outcome State Fault Refusal :=
  .next (transmit (.ok s.cfg.tagStop.toList) ackPayload s)

/-- `TX.VER` (R194, R198). -/
def execTxVer (s : State) : Host.Outcome State Fault Refusal :=
  .next (transmit (.ok s.cfg.tagVer.toList) (versionPayload s.cfg) s)

/-- `ACK.CLS bytes` (R200). -/
def execAckCls (bytes : Bytes) (s : State) : Host.Outcome State Fault Refusal :=
  .next (answer (ackClassify s.cfg (some bytes) >>= ackPayload) s)

end Sys2Proof.Machine
end

