-- ==== Sys2Proof/Machine/Dispatch.lean ====
section
/-! DEFINITION. One arm per operation of the opcode table (30_encoding.md rule R92). -/

namespace Sys2Proof.Machine

def exec (i : Instr) (s : State) : Host.Outcome State Fault Refusal :=
  match i with
  | .addrEnc text => Sys2Proof.Machine.execAddrEnc text s
  | .addrDec bytes => Sys2Proof.Machine.execAddrDec bytes s
  | .addrUnp6 bytes => Sys2Proof.Machine.execAddrUnp6 bytes s
  | .timeDec b => Sys2Proof.Machine.execTimeDec b s
  | .timeEnc dur => Sys2Proof.Machine.execTimeEnc dur s
  | .timeNorm hh mm ss ms => Sys2Proof.Machine.execTimeNorm hh mm ss ms s
  | .cmdOpc cid => Sys2Proof.Machine.execCmdOpc cid s
  | .cmdGrp idx v => Sys2Proof.Machine.execCmdGrp idx v s
  | .cmdName opcode => Sys2Proof.Machine.execCmdName opcode s
  | .frmOnce text cid dur => Sys2Proof.Machine.execFrmOnce text cid dur s
  | .frmRep text cid dur iv => Sys2Proof.Machine.execFrmRep text cid dur iv s
  | .txOnce text cid dur => Sys2Proof.Machine.execTxOnce text cid dur s
  | .txRep text cid dur iv => Sys2Proof.Machine.execTxRep text cid dur iv s
  | .txStop => Sys2Proof.Machine.execTxStop s
  | .txVer => Sys2Proof.Machine.execTxVer s
  | .ackCls bytes => Sys2Proof.Machine.execAckCls bytes s
  | .rxParse bytes => Sys2Proof.Machine.execRxParse bytes s
  | .rxPoll => Sys2Proof.Machine.execRxPoll s
  | .rxVer => Sys2Proof.Machine.execRxVer s
  | .dspAdd cb aen cen a cmd => Sys2Proof.Machine.execDspAdd cb aen cen a cmd s
  | .dspStart => Sys2Proof.Machine.execDspStart s
  | .dspStop => Sys2Proof.Machine.execDspStop s
  | .dspEmit a opcode cid tv dur => Sys2Proof.Machine.execDspEmit a opcode cid tv dur s
  | .sysStat => Sys2Proof.Machine.execSysStat s

end Sys2Proof.Machine
end

