-- ==== Sys2Proof/Machine/Turns.lean ====
section
/-! DEFINITION. What each agent's turn does (20_memory.md rule R71): the host presents a packet, the dispatcher takes
its step if it is enabled, the environment resets the block. -/

namespace Sys2Proof.Machine

/-- A host step: the packet check, then the operation; a packet that fails the check is answered with
`IllegalOperation` and does nothing else (R93). -/
def hostTurn (p : Bytes) (s : State) : Host.Outcome State Fault Refusal :=
  match decode p with
  | .ok i => exec i s
  | .error _ => .next (raise .illegalOperation s)

/-- The dispatcher agent is enabled exactly when `RUN = 1`; a turn it cannot take passes (R247; assumption log 2). -/
def dispatcherTurn (s : State) : State := if s.run then dispatcherStep s else s

/-- One turn of the agent named (R71, R300). -/
def takeTurn (t : Turn) (s : State) : Host.Outcome State Fault Refusal :=
  match t with
  | .host p => hostTurn p s
  | .dispatcher => .next (dispatcherTurn s)
  | .reset => .next (resetEvent s)

end Sys2Proof.Machine
end

