-- ==== Sys2Proof/Machine/Step.lean ====
section
/-! DEFINITION. One step of the block: the next turn of the interleaving, as one atomic transition (20_memory.md rule
R72). With no turn pending nothing happens (70_reset_and_hazards.md rule R301). -/

namespace Sys2Proof.Machine

/-- The agent whose turn is first on the agenda takes it; with an empty agenda the block stays as it is (R72, R301;
assumption log 2). -/
def step (s : State) : Host.Outcome State Fault Refusal :=
  match s.agenda with
  | [] => .next s
  | t :: rest => takeTurn t { s with agenda := rest }

/-- `s` with the packet of an opcode-table word presented by the host as its very next step (assumption log 3). -/
def State.withFetchWord (s : State) (nbits w : Nat) : State := presentPacket (tablePacket nbits w) s

end Sys2Proof.Machine
end

