-- ==== Sys2Proof/Machine/RefCfg.lean ====
section
/-! DEFINITION. `REFCFG`, the reference configuration (92_eei_decisions.md D31): "For tests and examples only. No rule
depends on it." Its literals are general knowledge, not the source's (assumption log 9); no meaning reads it. -/

namespace Sys2Proof.Machine

/-- Row `c` of the reference `NAME_ROM`: opcode `c`; `TIMED` from 0x20, five rows `SELF_TIMING`, else `SIMPLE`. -/
def refNameRow (c : Nat) : NameRow :=
  { opcode := BitVec.ofNat 8 c
    cls := if 0x20 ≤ c then .timed
      else if c ∈ [0x18, 0x19, 0x1A, 0x1E, 0x1F] then .selfTiming else .simple }

/-- Index `i` of the reference `GROUP_ROM`: 22 and 23 have no without-time slot, 23 and 27 no with-time slot. -/
def refGroupPair (i : Nat) : GroupPair :=
  { untimed := if i = 22 ∨ i = 23 then none
      else some { opcode := BitVec.ofNat 8 i, cid := BitVec.ofNat 16 i }
    timed := if i = 23 ∨ i = 27 then none
      else some { opcode := BitVec.ofNat 8 (32 + i), cid := BitVec.ofNat 16 (32 + i) } }

/-- `REFCFG` (D31). -/
def refCfg : Cfg where
  tagOnce := ⟨0x01, 0x06, 0xF1⟩
  tagRep := ⟨0x01, 0x07, 0xF2⟩
  tagStop := ⟨0x01, 0x01, 0xF3⟩
  tagVer := ⟨0x01, 0x01, 0xF0⟩
  ackHdr := ⟨0x02, 0x03, 0xA0⟩
  stOk := 0x00
  stFirmware := 0x01
  stStopOk := 0x04
  stStopNotSent := 0x05
  stUnknown := 0x02
  stMismatch := 0x03
  rxHdr := ⟨0x02, 0x0B⟩
  nameRom := (List.range 64).map refNameRow
  groupRom := Vector.ofFn fun i => refGroupPair i.val
  digits := .bcd
  nlis := some 16
  tRdTx := 500
  tRdRx := 100
  tPoll := 100

end Sys2Proof.Machine
end

