-- ==== Sys2Proof/Safety.lean ====
section
/-! DEFINITION. The terms claims use: what a safe step is, the invariant of the block, and the spec's own closed forms
of the address text, the operand packets and the effects of an operation on the state, written beside the rules and
not through the functions the meanings call. -/

namespace Sys2Proof.Machine

/-! ### Effects -/

/-- The state after an operation whose only effect is one result packet: every other field is as before. -/
def answered (s : State) (q : Bytes) : State := { s with trace := s.trace ++ [.res q] }

/-- The state after a transmit operation that wrote `f`, read one answer and gave the result `q` (R73 (a)): one
answer of the transmit adapter is used up, every other field is as before. -/
def exchanged (s : State) (f : Bytes) (q : Bytes) : State :=
  { s with
    trace := s.trace ++ [.txw f, .txr (txAnswer s), .res q]
    txAnswers := s.txAnswers.tail
    txReads := s.txReads + 1 }

/-- The state after one read of the receive adapter followed by the port events `es`: one answer of the receive
adapter is used up, every other field is as before. -/
def polled (s : State) (es : List PortEvent) : State :=
  { s with
    trace := s.trace ++ (.rxr (rxAnswer s) :: es)
    rxAnswers := s.rxAnswers.tail
    rxReads := s.rxReads + 1 }

/-! ### Operand packets -/

/-- Value of a byte of a packet as a natural number, 0 past its end. -/
def byteVal (p : Bytes) (k : Nat) : Nat := (p.getD k 0).toNat

/-- The packet check of R93 as the rule writes it: a known code, the total length of its format, and the
must-be-zero bits of `v` (byte 2 of `FG`), `fl` (byte 3 of `FL`) and `tv` (byte 7 of `FE`) zero. -/
def packetLegal (p : Bytes) : Bool :=
  match p with
  | [] => false
  | code :: ops =>
    match formatOf code with
    | none => false
    | some f =>
      (match f with
        | .FS | .FT1 | .FT2 => 1 ≤ ops.length
        | _ => true) &&
      p.length == f.length (byteVal p 1) &&
      (match f with
        | .FG => byteVal p 2 / 2 == 0
        | .FL => byteVal p 3 / 4 == 0
        | .FE => byteVal p 7 / 2 == 0
        | _ => true)

/-! ### Addresses -/

/-- The text form of an address (R100): 14 bytes, hyphens at 4 and 9, digit characters everywhere else. -/
abbrev ValidText (t : Bytes) : Prop :=
  t.length = 14 ∧ byteVal t 4 = 0x2D ∧ byteVal t 9 = 0x2D ∧
    ∀ k < 14, k ≠ 4 → k ≠ 9 → 0x31 ≤ byteVal t k ∧ byteVal t k ≤ 0x34

/-- The packed byte of the group that starts at index `k` of a text, as R101 writes it. -/
def packedGroup (t : Bytes) (k : Nat) : Byte :=
  BitVec.ofNat 8 ((byteVal t k - 0x31) * 64 + (byteVal t (k + 1) - 0x31) * 16 +
    (byteVal t (k + 2) - 0x31) * 4 + (byteVal t (k + 3) - 0x31))

/-- The packed form of a text (R101, R105: first group first). -/
def packedText (t : Bytes) : Bytes3 := ⟨packedGroup t 0, packedGroup t 5, packedGroup t 10⟩

/-- The character of the digit in bits `lo+1 .. lo` of a packed group, 0x31 plus the two bits (R100, R101). -/
def pairChar (b : Byte) (lo : Nat) : Byte := BitVec.ofNat 8 (0x31 + b.toNat / 2 ^ lo % 4)

/-- The four digit characters of a packed group, most significant pair first (R101). -/
def groupChars (b : Byte) : Bytes := [pairChar b 6, pairChar b 4, pairChar b 2, pairChar b 0]

/-! ### Durations -/

/-- A duration the encoder takes: 0 to 15 360 000 ms (R152). -/
abbrev EncodableDur (d : Int) : Prop := 0 ≤ d ∧ d ≤ 15360000

/-- A canonical time byte (R153). -/
abbrev CanonicalTime (b : Byte) : Prop :=
  b.toNat / 16 = 0 ∨ (1 ≤ b.toNat / 16 ∧ b.toNat / 16 ≤ 12 ∧ 8 ≤ b.toNat % 16)

/-- `b` is the time byte of `d` milliseconds: exponent `h` and count `l` as R152 chooses them. -/
def TimeByteOf (d : Int) (b : Byte) : Prop :=
  ∃ h l : Nat, h ≤ 12 ∧ l ≤ 15 ∧ b.toNat = h * 16 + l ∧
    (d < 2000 → h = 0) ∧
    (2000 ≤ d → 1000 * 2 ^ (h + 1) ≤ d ∧ d < 1000 * 2 ^ (h + 2)) ∧
    (l : Int) = d / (250 * 2 ^ h)

/-! ### Numbers in packets -/

/-- A 16-bit field, most significant byte first (R65). -/
def bigEndian2 (n : Nat) : Bytes := [BitVec.ofNat 8 (n / 256), BitVec.ofNat 8 n]

/-- A 32-bit field, most significant byte first (R65). -/
def bigEndian4 (n : Nat) : Bytes :=
  [BitVec.ofNat 8 (n / 16777216), BitVec.ofNat 8 (n / 65536), BitVec.ofNat 8 (n / 256), BitVec.ofNat 8 n]

/-- The 11 bytes of an event as R98 lists them. -/
def eventLayout (ev : Event) : Bytes :=
  [ev.addr.b0, ev.addr.b1, ev.addr.b2, ev.opcode] ++ bigEndian2 ev.cid.toNat ++
    (match ev.time with
      | some d => 0x01 :: bigEndian4 d.toNat
      | none => [0x00, 0x00, 0x00, 0x00, 0x00])

/-! ### Send frames -/

/-- `body` is what a send frame for these operands carries after its tag: address, opcode, and the time byte, which
is 0x00 unless the command is `TIMED` (R105, R190, R191). -/
def SendBody (c : Cfg) (text : Bytes) (cid : Half) (d : Int) (body : Bytes) : Prop :=
  ValidText text ∧ EncodableDur d ∧ ∃ row tb, c.nameRom[cid.toNat]? = some row ∧
    (row.cls = .timed → TimeByteOf d tb) ∧ (row.cls ≠ .timed → tb = 0x00) ∧
    body = (packedText text).toList ++ [row.opcode, tb]

/-- The fault code of operands for which no send frame can be built: address before command before duration (R191). -/
def SendFault (c : Cfg) (text : Bytes) (cid : Half) (d : Int) (code : Byte) : Prop :=
  (¬ ValidText text ∧ code = 0x01) ∨
  (ValidText text ∧ c.nameRom.length ≤ cid.toNat ∧ code = 0x03) ∨
  (ValidText text ∧ cid.toNat < c.nameRom.length ∧ ¬ EncodableDur d ∧ code = 0x05)

/-! ### Acknowledgements -/

/-- The six recognised status bytes, each with the result packet it leads to when the trailer is `tr` (R96, R200,
R271). -/
def statusTable (c : Cfg) (tr : Byte) : List (Byte × Bytes) :=
  [(c.stOk, [0x00, 0x00, tr]), (c.stFirmware, [0x00, 0x01, tr]), (c.stStopOk, [0x00, 0x02, tr]),
   (c.stStopNotSent, [0x00, 0x03, tr]), (c.stUnknown, [0x08]), (c.stMismatch, [0x09])]

/-- `a` is an acknowledgement with status `st` and trailer `tr` (R106). -/
def AckRead (c : Cfg) (a : Option Bytes) (st tr : Byte) : Prop :=
  a = some (c.ackHdr.toList ++ [st, tr])

/-- `q` is the result packet that classifying the read `a` leads to (R200): by the status where the read is an
acknowledgement with a recognised one, `InvalidResponse` otherwise. -/
def AckPacket (c : Cfg) (a : Option Bytes) (q : Bytes) : Prop :=
  (∃ st tr, AckRead c a st tr ∧ (st, q) ∈ statusTable c tr) ∨
  (∃ st tr, AckRead c a st tr ∧ (∀ r ∈ statusTable c tr, r.1 ≠ st) ∧ q = [0x07]) ∨
  ((∀ st tr, ¬ AckRead c a st tr) ∧ q = [0x07])

/-! ### Receive events -/

/-- Decimal digit `k` of a sequence of two-digit readings, digit 0 the first one's tens digit (R108). -/
def digitAt (qs : List (Fin 10 × Fin 10)) (k : Nat) : Nat :=
  let p := qs.getD (k / 2) (0, 0)
  if k % 2 = 0 then p.1.val else p.2.val

/-- The packed byte of the address group whose first digit is digit `k` (R101, R108 (a)). -/
def packedDigits (qs : List (Fin 10 × Fin 10)) (k : Nat) : Byte :=
  BitVec.ofNat 8 ((digitAt qs k - 1) * 64 + (digitAt qs (k + 1) - 1) * 16 +
    (digitAt qs (k + 2) - 1) * 4 + (digitAt qs (k + 3) - 1))

/-- Digits `0 .. n-1` are address digits, 1..4 (R108 (a)). -/
abbrev AddressDigits (qs : List (Fin 10 × Fin 10)) (n : Nat) : Prop :=
  ∀ k < n, 1 ≤ digitAt qs k ∧ digitAt qs k ≤ 4

/-- The command group index of a body: digits 12 and 13 (R108 (b)). -/
def groupIndex (qs : List (Fin 10 × Fin 10)) : Nat := 10 * digitAt qs 12 + digitAt qs 13

/-- The event is timed exactly when the flag digit, digit 14, is 1 (R108 (c)). -/
def timedFlag (qs : List (Fin 10 × Fin 10)) : Bool := digitAt qs 14 == 1

/-- The count of quarter-steps: digits 15 to 19 (R108 (c)). -/
def quarterSteps (qs : List (Fin 10 × Fin 10)) : Nat :=
  digitAt qs 15 * 10000 + digitAt qs 16 * 1000 + digitAt qs 17 * 100 + digitAt qs 18 * 10 + digitAt qs 19

/-- `GROUP_ROM[idx][v]` by the table alone; there is no slot above index 31 (R62, R109). -/
def slotAt (c : Cfg) (idx : Nat) (v : Bool) : Option GroupRow :=
  (c.groupRom.toList[idx]?).bind fun p => if v then p.timed else p.untimed

/-- `a` is a receive-event read with the right length and header, all of whose ten digit bytes have a decimal reading,
`qs`, and whose version byte is `v` (R107, R108). -/
def EventRead (c : Cfg) (a : Option Bytes) (qs : List (Fin 10 × Fin 10)) (v : Byte) : Prop :=
  ∃ body : Bytes, body.length = 10 ∧ body.map (digits2 c) = qs.map some ∧
    a = some (c.rxHdr.toList ++ body ++ [v])

/-- The read parses to the event `ev` with version byte `v` (R222). -/
def ParsesTo (c : Cfg) (a : Option Bytes) (ev : Event) (v : Byte) : Prop :=
  ∃ qs row, EventRead c a qs v ∧ AddressDigits qs 12 ∧ slotAt c (groupIndex qs) (timedFlag qs) = some row ∧
    ev = { addr := ⟨packedDigits qs 0, packedDigits qs 4, packedDigits qs 8⟩
           opcode := row.opcode
           cid := row.cid
           time := if timedFlag qs then some (BitVec.ofNat 32 (250 * quarterSteps qs)) else none }

/-- The read is absent, of the wrong length, of the wrong header, or has a byte without a decimal reading:
`InvalidResponse` (R222). -/
def ParseInvalidResponse (c : Cfg) (a : Option Bytes) : Prop := ∀ qs v, ¬ EventRead c a qs v

/-- Every byte reads as decimal and an address digit is outside 1..4: `InvalidAddress` (R222). -/
def ParseInvalidAddress (c : Cfg) (a : Option Bytes) : Prop :=
  ∃ qs v, EventRead c a qs v ∧ ¬ AddressDigits qs 12

/-- The address is good and the group slot is reserved or absent: `UnknownCommandGroup` (R222). -/
def ParseUnknownGroup (c : Cfg) (a : Option Bytes) : Prop :=
  ∃ qs v, EventRead c a qs v ∧ AddressDigits qs 12 ∧ slotAt c (groupIndex qs) (timedFlag qs) = none

/-! ### Dispatch -/

/-- The callbacks of one event by the document's registry (R37, R242): for each of the event's four keys in
specificity order, the entries registered under that key in registration order. -/
def deliveries (lis : List Listener) (ev : Event) : List PortEvent :=
  (eventKeys ev).flatMap fun k => (lis.filter fun e => listenerKey e == k).map fun e => .cb e.cb ev

/-- The flags a dispatcher's state machine is about (R251). -/
def runFlags (s : State) : Bool × Bool × BitVec 4 := (s.run, s.stopReq, s.dfault)

/-- The fault codes an operation can answer with, beside `IllegalOperation` of the packet check (R271, R284). -/
def faultCodesOf (i : Instr) : List Byte :=
  match i with
  | .addrEnc _ => [0x01]
  | .addrDec _ => [0x01]
  | .addrUnp6 _ => [0x01, 0x07]
  | .timeDec _ => []
  | .timeEnc _ => [0x05]
  | .timeNorm _ _ _ _ => [0x05]
  | .cmdOpc _ => [0x03]
  | .cmdGrp _ _ => [0x04]
  | .cmdName _ => [0x02]
  | .frmOnce _ _ _ => [0x01, 0x03, 0x05]
  | .frmRep _ _ _ _ => [0x01, 0x03, 0x05, 0x06]
  | .txOnce _ _ _ => [0x01, 0x03, 0x05, 0x07, 0x08, 0x09]
  | .txRep _ _ _ _ => [0x01, 0x03, 0x05, 0x06, 0x07, 0x08, 0x09]
  | .txStop => [0x07, 0x08, 0x09]
  | .txVer => [0x07, 0x08, 0x09]
  | .ackCls _ => [0x07, 0x08, 0x09]
  | .rxParse _ => [0x07, 0x01, 0x04]
  | .rxPoll => [0x07, 0x01, 0x04]
  | .rxVer => [0x0B]
  | .dspAdd _ _ _ _ _ => [0x0C]
  | .dspStart => [0x0C]
  | .dspStop => []
  | .dspEmit _ _ _ _ _ => []
  | .sysStat => []

/-- The operations of the files 40 to 43 and `SYS.STAT`, which write no state of R30 but the ghost history (R130,
R150, R170, R190, R249). -/
def writesNoState (i : Instr) : Bool :=
  match i with
  | .rxParse _ | .rxPoll | .dspAdd _ _ _ _ _ | .dspStart | .dspStop => false
  | _ => true

/-- The four operations that exchange a frame with the transmit adapter (R195 to R198). -/
def exchanges (i : Instr) : Bool :=
  match i with
  | .txOnce _ _ _ | .txRep _ _ _ _ | .txStop | .txVer => true
  | _ => false

/-! ### The invariant -/

/-- A result packet is a success with its payload or one byte with a fault code that is produced (R94, R271). -/
def resultLegal (q : Bytes) : Bool :=
  match q with
  | [] => false
  | 0x00#8 :: _ => true
  | [code] => code.toNat ≤ 0x0C && code.toNat != 0x0A
  | _ => false

/-- A port event has the shape the ports allow: frames of 3, 8 or 9 bytes, answers within the request, legal results
(R68, R94, R105). -/
def eventLegal (e : PortEvent) : Bool :=
  match e with
  | .txw f => f.length == 3 || f.length == 8 || f.length == 9
  | .txr (some a) => a.length ≤ 5
  | .txr none => true
  | .rxr (some a) => a.length ≤ 13
  | .rxr none => true
  | .cb _ _ => true
  | .res q => resultLegal q

/-- "One command, one acknowledgement" (R73 (a)): every frame written is followed at once by one read, and no read
of the transmit adapter stands alone. -/
def paired (t : List PortEvent) : Bool :=
  match t with
  | [] => true
  | .txw _ :: .txr _ :: rest => paired rest
  | .txw _ :: _ => false
  | .txr _ :: _ => false
  | .rxr _ :: rest => paired rest
  | .cb _ _ :: rest => paired rest
  | .res _ :: rest => paired rest

/-- The invariant of the block. -/
structure BlockInv (s : State) : Prop where
  /-- the state (0, 1) is unreachable (R251) -/
  stopOnlyWhileRunning : s.stopReq = true → s.run = true
  /-- a latched fault means the dispatcher is stopped (R33, R243, R247) -/
  faultOnlyWhileStopped : s.run = true → s.dfault = 0
  /-- only `InvalidAddress` and `UnknownCommandGroup` are ever latched (R247) -/
  faultLegal : s.dfault = 0 ∨ s.dfault = 1 ∨ s.dfault = 4
  /-- `0 <= LCOUNT <= NLIS` (R36) -/
  tableBounded : ∀ n ∈ s.cfg.nlis, s.lis.length ≤ n
  /-- every event of the history has a legal shape (R68, R94, R105) -/
  eventsLegal : ∀ e ∈ s.trace, eventLegal e = true
  /-- one command, one acknowledgement (R73 (a)) -/
  onePerCommand : paired s.trace = true

/-- A step that answers a next state: neither a fault nor a refusal. -/
def Completes (s : State) : Prop := ∃ t, step s = .next t

/-- No dispatcher poll can happen before another `DSP.START`: stopped, or a stop request pending (R311). -/
abbrev Halting (s : State) : Prop := s.run = false ∨ s.stopReq = true

/-- The state a step answers with, the same state where it stops. -/
def afterStep (s : State) : State :=
  match step s with
  | .next t => t
  | .fault _ => s
  | .refused _ => s

/-- The state after `n` steps. -/
def afterSteps (n : Nat) (s : State) : State :=
  match n with
  | 0 => s
  | k + 1 => afterSteps k (afterStep s)

end Sys2Proof.Machine
end

