-- ==== Sys2Proof/Certificates/Slice0/Obligations.lean ====
section
/-! DEFINITION. The statements for the provers. Each names the rule of the spec it formalises; the terms that are not
the model's own functions are in Sys2Proof/Safety.lean, written from the rules. -/

open Sys2Proof Sys2Proof.Machine

/-! ### Packets -/

/-- Decoding the packet of a well-formed operation gives it back, every operand at every value (R91, R92; D3). -/
def Obligations.DecodeOfEncodeIsIdentity : Prop :=
  ∀ i : Instr, i.WellFormed → decode (encode i) = .ok i

/-- A packet the decoder takes is the packet of the operation it reads, which is well formed: each packet has one
meaning and each operation one packet (R91; D3 "a bijection between packets and calls"). -/
def Obligations.EncodeOfDecodeIsIdentity : Prop :=
  ∀ (p : Bytes) (i : Instr), decode p = .ok i → i.WellFormed ∧ encode i = p

/-- R93, whole: a packet that passes the check runs the operation it decodes to, and the packets that pass are exactly
the legal ones; a packet that fails it changes no state and performs no port transfer except the fault result. -/
def Obligations.PacketCheckIsExact : Prop :=
  ∀ p : Bytes,
    (packetLegal p = true → ∃ i, decode p = .ok i ∧ ∀ s, hostTurn p s = exec i s) ∧
    (packetLegal p = false → ∀ s, hostTurn p s = .next (answered s [0x0C]))

/-- Packets written out byte by byte from R91 and R92 decode to the operations they stand for (sanity). -/
def Obligations.SpecPacketsDecode : Prop :=
  decode [0x11, 0x03, 0x1B, 0xE4, 0x72] = .ok (.addrDec [0x1B, 0xE4, 0x72]) ∧
  decode [0x21, 0xFF, 0xFF, 0xFF, 0xFE] = .ok (.timeEnc 0xFFFFFFFE) ∧
  decode [0x31, 0x19, 0x01] = .ok (.cmdGrp 0x19 true) ∧
  decode [0x41, 0x01, 0x41, 0x12, 0x34, 0x00, 0x00, 0xEA, 0x60, 0x01, 0x05] =
    .ok (.frmRep [0x41] 0x1234 0x0000EA60 0x0105) ∧
  decode [0x51] = .ok .rxPoll ∧
  decode [0x60, 0x00, 0x03, 0x01, 0x1B, 0xE4, 0x72, 0x39] =
    .ok (.dspAdd 3 true false ⟨0x1B, 0xE4, 0x72⟩ 0x39) ∧
  decode [0x63, 0x1B, 0xE4, 0x72, 0x39, 0x01, 0x02, 0x01, 0x00, 0x00, 0xEA, 0x60] =
    .ok (.dspEmit ⟨0x1B, 0xE4, 0x72⟩ 0x39 0x0102 true 0x0000EA60)

/-! ### Steps -/

/-- A host turn whose packet decodes runs the decoded operation, on the state with that turn taken off the agenda
(R71 (a), R72; the agenda is the model's, assumption log 2). -/
def Obligations.StepRunsDecodedOperation : Prop :=
  ∀ (s : State) (p : Bytes) (i : Instr) (rest : List Turn),
    s.agenda = .host p :: rest → decode p = .ok i → step s = exec i { s with agenda := rest }

/-- With no turn pending, nothing happens (R301; that the empty agenda is idle is the model's choice, assumption
log 2). -/
def Obligations.EmptyAgendaIsIdle : Prop :=
  ∀ s : State, s.agenda = [] → step s = .next s

/-- `RESET` at any point gives the reset values, leaves `CFG` untouched and does not reach the environment (R300, R45;
R304 for the environment's fields). -/
def Obligations.ResetTurnGivesResetValues : Prop :=
  ∀ (s : State) (rest : List Turn), s.agenda = .reset :: rest →
    step s = .next
      { run := false, stopReq := false, dfault := 0, rxver := none, lis := [], trace := [],
        cfg := s.cfg, agenda := rest, txAnswers := s.txAnswers, rxAnswers := s.rxAnswers,
        txReads := s.txReads, rxReads := s.rxReads }

/-- The table of R45: of the reset state, and of the state any state is reset to, whose configuration is unchanged. -/
def Obligations.ResetStateIsSpecTable : Prop :=
  (State.reset.run = false ∧ State.reset.stopReq = false ∧ State.reset.dfault = 0 ∧
    State.reset.rxver = none ∧ State.reset.lis.length = 0 ∧ State.reset.trace = []) ∧
  ∀ s : State, (resetEvent s).run = false ∧ (resetEvent s).stopReq = false ∧ (resetEvent s).dfault = 0 ∧
    (resetEvent s).rxver = none ∧ (resetEvent s).lis.length = 0 ∧ (resetEvent s).trace = [] ∧
    (resetEvent s).cfg = s.cfg

/-- Every step answers a next state: nothing is undefined, no step is stuck (R310, R78). -/
def Obligations.EveryStepCompletes : Prop :=
  ∀ s : State, Completes s

/-! ### Address codec -/

/-- `ADDR.ENC`: a valid text is answered with its packed form, any other text with `InvalidAddress`; nothing else
changes (R132, R133, R101). -/
def Obligations.AddrEncAnswer : Prop :=
  ∀ (s : State) (t : Bytes),
    (ValidText t → exec (.addrEnc t) s = .next (answered s (0x00 :: (packedText t).toList))) ∧
    (¬ ValidText t → exec (.addrEnc t) s = .next (answered s [0x01]))

/-- `ADDR.DEC`: three bytes are answered with their 14 text bytes, any other width with `InvalidAddress` (R134). -/
def Obligations.AddrDecAnswer : Prop :=
  ∀ s : State,
    (∀ b0 b1 b2 : Byte, exec (.addrDec [b0, b1, b2]) s = .next (answered s
      (0x00 :: (groupChars b0 ++ [0x2D] ++ groupChars b1 ++ [0x2D] ++ groupChars b2)))) ∧
    (∀ bytes : Bytes, bytes.length ≠ 3 → exec (.addrDec bytes) s = .next (answered s [0x01]))

/-- The round-trip laws of the address codec (R135). -/
def Obligations.AddressRoundTrips : Prop :=
  (∀ (t : Bytes) (a : Bytes3), addrEnc t = .ok a → addrDec a.toList = .ok t) ∧
  (∀ a : Bytes3, ∃ t, addrDec a.toList = .ok t ∧ addrEnc t = .ok a)

/-- `ADDR.UNP6`: the width first, then all six decimal readings, then the digit ranges (R136). -/
def Obligations.AddrUnp6Answer : Prop :=
  ∀ (s : State) (bytes : Bytes),
    (bytes.length ≠ 6 → exec (.addrUnp6 bytes) s = .next (answered s [0x01])) ∧
    (bytes.length = 6 → (∃ b ∈ bytes, digits2 s.cfg b = none) →
      exec (.addrUnp6 bytes) s = .next (answered s [0x07])) ∧
    (∀ qs, bytes.length = 6 → bytes.map (digits2 s.cfg) = qs.map some →
      (¬ AddressDigits qs 12 → exec (.addrUnp6 bytes) s = .next (answered s [0x01])) ∧
      (AddressDigits qs 12 → exec (.addrUnp6 bytes) s = .next (answered s
        [0x00, packedDigits qs 0, packedDigits qs 4, packedDigits qs 8])))

/-- The two address widths agree: six bytes that read as the digit pairs of a valid text unpack to what the text
encodes to (R137). -/
def Obligations.ReceiveWidthAgreesWithText : Prop :=
  ∀ (c : Cfg) (t bytes : Bytes) (qs : List (Fin 10 × Fin 10)), ValidText t → bytes.length = 6 →
    bytes.map (digits2 c) = qs.map some →
    (∀ g < 3, ∀ j < 4, digitAt qs (4 * g + j) = byteVal t (5 * g + j) - 0x30) →
    addrUnp6 c bytes = addrEnc t ∧ ∃ a, addrEnc t = .ok a

/-! ### Time codec -/

/-- `TIME.DEC`: `(l << h) * 250` milliseconds for every byte (R151). -/
def Obligations.TimeDecAnswer : Prop :=
  ∀ (s : State) (b : Byte), exec (.timeDec b) s =
    .next (answered s (0x00 :: bigEndian4 (b.toNat % 16 * 2 ^ (b.toNat / 16) * 250)))

/-- `TIME.ENC`: the time byte of R152 for 0 to 15 360 000 ms, `UnsupportedDuration` outside (R152). -/
def Obligations.TimeEncAnswer : Prop :=
  ∀ (s : State) (dur : Dur),
    (¬ EncodableDur dur.toInt → exec (.timeEnc dur) s = .next (answered s [0x05])) ∧
    (EncodableDur dur.toInt → ∃ b, TimeByteOf dur.toInt b ∧
      exec (.timeEnc dur) s = .next (answered s [0x00, b]))

/-- A time byte survives decoding and encoding exactly when it is canonical, and there are 112 of those (R153). -/
def Obligations.CanonicalBytesRoundTrip : Prop :=
  (∀ b : Byte, timeEnc (timeDec b) = .ok b ↔ CanonicalTime b) ∧
  ((List.range 256).filter fun n => CanonicalTime (BitVec.ofNat 8 n)).length = 112

/-- The encoder produces canonical bytes only, truncates toward zero by less than one step, and is exact for the
multiples of the step it chose (R153, R154). -/
def Obligations.EncodingTruncates : Prop :=
  ∀ d : Int, EncodableDur d → ∃ b, timeEnc d = .ok b ∧ CanonicalTime b ∧
    (timeDec b : Int) ≤ d ∧ d - timeDec b < 250 * 2 ^ (b.toNat / 16) ∧
    ((timeDec b : Int) = d ↔ (250 * 2 ^ (b.toNat / 16) : Int) ∣ d)

/-- `TIME.NORM`: field ranges, then the sub-second part snapped to 250 ms with a remainder above 125 going up (R155). -/
def Obligations.TimeNormAnswer : Prop :=
  ∀ (s : State) (hh mm ss : Byte) (ms : Half),
    ((59 < mm.toNat ∨ 59 < ss.toNat ∨ 999 < ms.toNat) →
      exec (.timeNorm hh mm ss ms) s = .next (answered s [0x05])) ∧
    (mm.toNat ≤ 59 → ss.toNat ≤ 59 → ms.toNat ≤ 999 →
      exec (.timeNorm hh mm ss ms) s = .next (answered s (0x00 :: bigEndian4
        (hh.toNat * 3600000 + mm.toNat * 60000 + ss.toNat * 1000 + ms.toNat / 250 * 250 +
          (if 125 < ms.toNat % 250 then 250 else 0)))))

/-- A normalised duration is a multiple of 250 ms, at most 125 ms from the input, and fits a `Dur` (R155, R156). -/
def Obligations.NormalisedIsNearestQuarterStep : Prop :=
  ∀ (hh mm ss : Byte) (ms : Half) (n : Nat), timeNorm hh mm ss ms = .ok n →
    n % 250 = 0 ∧ n ≤ 921600000 ∧
    n ≤ hh.toNat * 3600000 + mm.toNat * 60000 + ss.toNat * 1000 + ms.toNat + 125 ∧
    hh.toNat * 3600000 + mm.toNat * 60000 + ss.toNat * 1000 + ms.toNat ≤ n + 125

/-! ### Command table -/

/-- `CMD.OPC`: opcode and class of row `cid`, `UnknownCommand` when there is no such row (R171, R97). -/
def Obligations.CmdOpcAnswer : Prop :=
  ∀ (s : State) (cid : Half),
    (∀ row, s.cfg.nameRom[cid.toNat]? = some row → exec (.cmdOpc cid) s = .next (answered s
      [0x00, row.opcode, match row.cls with | .simple => 0x00 | .timed => 0x01 | .selfTiming => 0x02])) ∧
    (s.cfg.nameRom.length ≤ cid.toNat → exec (.cmdOpc cid) s = .next (answered s [0x03]))

/-- `CMD.GRP`: opcode and command of a populated slot, `UnknownCommandGroup` for a reserved slot and for an index
above 31 (R172). -/
def Obligations.CmdGrpAnswer : Prop :=
  ∀ (s : State) (idx : Byte) (v : Bool),
    (∀ row, slotAt s.cfg idx.toNat v = some row →
      exec (.cmdGrp idx v) s = .next (answered s ([0x00, row.opcode] ++ bigEndian2 row.cid.toNat))) ∧
    (slotAt s.cfg idx.toNat v = none → exec (.cmdGrp idx v) s = .next (answered s [0x04])) ∧
    (31 < idx.toNat → exec (.cmdGrp idx v) s = .next (answered s [0x04]))

/-- `CMD.NAME`: the command whose row has the opcode, `InvalidCommand` when none has (R173). -/
def Obligations.CmdNameAnswer : Prop :=
  ∀ (s : State) (opcode : Byte), s.cfg.WellFormed →
    (∀ (cid : Half) (row : NameRow), s.cfg.nameRom[cid.toNat]? = some row → row.opcode = opcode →
      exec (.cmdName opcode) s = .next (answered s (0x00 :: bigEndian2 cid.toNat))) ∧
    ((∀ row ∈ s.cfg.nameRom, row.opcode ≠ opcode) →
      exec (.cmdName opcode) s = .next (answered s [0x02]))

/-- The two name lookups are inverse to each other (R173, its derived law). -/
def Obligations.NameAndOpcodeAreInverse : Prop :=
  ∀ c : Cfg, c.WellFormed →
    (∀ (cid : Half) (opcode : Byte) (cls : CmdClass), opcodeFor c cid = .ok (opcode, cls) →
      nameFor c opcode = .ok cid) ∧
    (∀ (opcode : Byte) (cid : Half), nameFor c opcode = .ok cid →
      ∃ cls, opcodeFor c cid = .ok (opcode, cls))

/-- The two tables agree: a populated slot names a row with its opcode, `TIMED` exactly for variant 1 (R174). -/
def Obligations.GroupAndNameTablesAgree : Prop :=
  ∀ (c : Cfg) (idx : Nat) (v : Bool) (opcode : Byte) (cid : Half), c.WellFormed →
    lookupGroup c idx v = .ok (opcode, cid) →
    ∃ cls, opcodeFor c cid = .ok (opcode, cls) ∧ (cls = .timed ↔ v = true)

/-! ### Frames and transmit -/

/-- `FRM.ONCE`: tag, packed address, opcode and time byte; the faults in the order address, command, duration (R191,
R105). -/
def Obligations.FrmOnceAnswer : Prop :=
  ∀ (s : State) (text : Bytes) (cid : Half) (dur : Dur),
    (∀ body, SendBody s.cfg text cid dur.toInt body →
      exec (.frmOnce text cid dur) s = .next (answered s (0x00 :: (s.cfg.tagOnce.toList ++ body)))) ∧
    (∀ code, SendFault s.cfg text cid dur.toInt code →
      exec (.frmOnce text cid dur) s = .next (answered s [code]))

/-- `FRM.REP`: the same with its own tag and the interval byte; an interval outside 1..255 is `InvalidInterval`, after
the other three checks (R192, R105). -/
def Obligations.FrmRepAnswer : Prop :=
  ∀ (s : State) (text : Bytes) (cid : Half) (dur : Dur) (iv : Half),
    (∀ body, SendBody s.cfg text cid dur.toInt body → 1 ≤ iv.toNat → iv.toNat ≤ 255 →
      exec (.frmRep text cid dur iv) s = .next (answered s
        (0x00 :: (s.cfg.tagRep.toList ++ body ++ [BitVec.ofNat 8 iv.toNat])))) ∧
    (∀ body, SendBody s.cfg text cid dur.toInt body → (iv.toNat < 1 ∨ 255 < iv.toNat) →
      exec (.frmRep text cid dur iv) s = .next (answered s [0x06])) ∧
    (∀ code, SendFault s.cfg text cid dur.toInt code →
      exec (.frmRep text cid dur iv) s = .next (answered s [code]))

/-- `TX.ONCE`: one write of the frame, then one read, then the classification; operands with no frame are reported
with no port transfer (R195, R199). -/
def Obligations.TxOnceAnswer : Prop :=
  ∀ (s : State) (text : Bytes) (cid : Half) (dur : Dur), s.cfg.WellFormed →
    (∀ body q, SendBody s.cfg text cid dur.toInt body → AckPacket s.cfg (txAnswer s) q →
      exec (.txOnce text cid dur) s = .next (exchanged s (s.cfg.tagOnce.toList ++ body) q)) ∧
    (∀ code, SendFault s.cfg text cid dur.toInt code →
      exec (.txOnce text cid dur) s = .next (answered s [code]))

/-- `TX.REP`: the same with the repeating frame; a bad interval is reported before any transfer (R196, R199). -/
def Obligations.TxRepAnswer : Prop :=
  ∀ (s : State) (text : Bytes) (cid : Half) (dur : Dur) (iv : Half), s.cfg.WellFormed →
    (∀ body q, SendBody s.cfg text cid dur.toInt body → 1 ≤ iv.toNat → iv.toNat ≤ 255 →
      AckPacket s.cfg (txAnswer s) q →
      exec (.txRep text cid dur iv) s = .next (exchanged s
        (s.cfg.tagRep.toList ++ body ++ [BitVec.ofNat 8 iv.toNat]) q)) ∧
    (∀ body, SendBody s.cfg text cid dur.toInt body → (iv.toNat < 1 ∨ 255 < iv.toNat) →
      exec (.txRep text cid dur iv) s = .next (answered s [0x06])) ∧
    (∀ code, SendFault s.cfg text cid dur.toInt code →
      exec (.txRep text cid dur iv) s = .next (answered s [code]))

/-- `TX.STOP`: the stop tag is written, one answer is read and classified, always; every answer has a classification
(R193, R197, R199). -/
def Obligations.TxStopAnswer : Prop :=
  ∀ s : State, s.cfg.WellFormed →
    (∃ q, AckPacket s.cfg (txAnswer s) q) ∧
    (∀ q, AckPacket s.cfg (txAnswer s) q →
      exec .txStop s = .next (exchanged s s.cfg.tagStop.toList q))

/-- `TX.VER`: the version tag is written and one answer read, always; a `FIRMWARE` answer whose trailer reads as two
digits gives the trailer and the digits; any other class, and a trailer without digits, is `InvalidResponse`; a
classification that faults is reported as it is (R194, R198, R199). -/
def Obligations.TxVerAnswer : Prop :=
  ∀ s : State, s.cfg.WellFormed →
    (∀ (tr : Byte) (x y : Fin 10), AckRead s.cfg (txAnswer s) s.cfg.stFirmware tr →
      digits2 s.cfg tr = some (x, y) →
      exec .txVer s = .next (exchanged s s.cfg.tagVer.toList
        [0x00, tr, BitVec.ofNat 8 x.val, BitVec.ofNat 8 y.val])) ∧
    (∀ tr : Byte, AckRead s.cfg (txAnswer s) s.cfg.stFirmware tr → digits2 s.cfg tr = none →
      exec .txVer s = .next (exchanged s s.cfg.tagVer.toList [0x07])) ∧
    (∀ q : Bytes, AckPacket s.cfg (txAnswer s) q → (∀ tr, ¬ AckRead s.cfg (txAnswer s) s.cfg.stFirmware tr) →
      exec .txVer s = .next (exchanged s s.cfg.tagVer.toList (if q.length = 1 then q else [0x07])))

/-- `ACK.CLS`: length, header and status in that order, the trailer returned as it is; every read has a result (R200,
R96, R106). -/
def Obligations.AckClsAnswer : Prop :=
  ∀ (s : State) (bytes : Bytes), s.cfg.WellFormed →
    (∃ q, AckPacket s.cfg (some bytes) q) ∧
    (∀ q, AckPacket s.cfg (some bytes) q → exec (.ackCls bytes) s = .next (answered s q))

/-- No I/O on invalid input: a send that ends with a codec fault adds its result to the history and nothing else;
any other result comes with exactly one write and one read before it, in that order (R201). -/
def Obligations.NoIoOnInvalidInput : Prop :=
  ∀ (s t : State) (i : Instr),
    ((∃ text cid dur, i = .txOnce text cid dur) ∨ (∃ text cid dur iv, i = .txRep text cid dur iv)) →
    exec i s = .next t →
    ∃ q, (q ∈ ([[0x01], [0x03], [0x05], [0x06]] : List Bytes) ∧ t = answered s q) ∨
      (q ∉ ([[0x01], [0x03], [0x05], [0x06]] : List Bytes) ∧
        ∃ f, t.trace = s.trace ++ [.txw f, .txr (txAnswer s), .res q])

/-- The frame written is a function of the operands and `CFG` alone (R202). -/
def Obligations.FrameDependsOnOperandsOnly : Prop :=
  ∀ (s s' t t' : State) (i : Instr) (f f' : Bytes), s.cfg = s'.cfg →
    exec i s = .next t → exec i s' = .next t' →
    PortEvent.txw f ∈ t.trace.drop s.trace.length → PortEvent.txw f' ∈ t'.trace.drop s'.trace.length →
    f = f'

/-! ### Receive -/

/-- The parser answers as the rules say, case by case: an event exactly for the reads the rules parse to it, and each
of the three faults exactly on the reads the rules give it (R222); every read is one of these cases and no two of them
hold together (R310). The two named decimal readings are those of R104. -/
def Obligations.ParseOutcomesPartitionReads : Prop :=
  ∀ (c : Cfg) (a : Option Bytes),
    (∀ ev v, ParsesTo c a ev v ↔ parseEvent c a = .ok (ev, v)) ∧
    (ParseInvalidResponse c a ↔ parseEvent c a = .error .invalidResponse) ∧
    (ParseInvalidAddress c a ↔ parseEvent c a = .error .invalidAddress) ∧
    (ParseUnknownGroup c a ↔ parseEvent c a = .error .unknownCommandGroup) ∧
    ((∃ ev v, ParsesTo c a ev v) ∨ ParseInvalidResponse c a ∨ ParseInvalidAddress c a ∨
      ParseUnknownGroup c a) ∧
    (∀ ev v ev' v', ParsesTo c a ev v → ParsesTo c a ev' v' → ev = ev' ∧ v = v') ∧
    (∀ ev v, ParsesTo c a ev v →
      ¬ ParseInvalidResponse c a ∧ ¬ ParseInvalidAddress c a ∧ ¬ ParseUnknownGroup c a) ∧
    ¬ (ParseInvalidResponse c a ∧ ParseInvalidAddress c a) ∧
    ¬ (ParseInvalidResponse c a ∧ ParseUnknownGroup c a) ∧
    ¬ (ParseInvalidAddress c a ∧ ParseUnknownGroup c a) ∧
    (c.digits = .bcd → ∀ (b : Byte) (t o : Fin 10),
      digits2 c b = some (t, o) ↔ b.toNat = 16 * t.val + o.val) ∧
    (c.digits = .divmod → ∀ (b : Byte) (t o : Fin 10),
      digits2 c b = some (t, o) ↔ b.toNat = 10 * t.val + o.val)

/-- `RX.PARSE`: the event and the version cell on success; the three faults in their order, with nothing written
(R222, R224, R98). -/
def Obligations.RxParseAnswer : Prop :=
  ∀ (s : State) (bytes : Bytes),
    (∀ ev v, ParsesTo s.cfg (some bytes) ev v → exec (.rxParse bytes) s =
      .next { answered s (0x00 :: eventLayout ev) with rxver := some v }) ∧
    (ParseInvalidResponse s.cfg (some bytes) → exec (.rxParse bytes) s = .next (answered s [0x07])) ∧
    (ParseInvalidAddress s.cfg (some bytes) → exec (.rxParse bytes) s = .next (answered s [0x01])) ∧
    (ParseUnknownGroup s.cfg (some bytes) → exec (.rxParse bytes) s = .next (answered s [0x04]))

/-- `RX.POLL`: one read of the receive adapter, then the same parse; no listener is invoked (R225). -/
def Obligations.RxPollAnswer : Prop :=
  ∀ s : State,
    (∀ ev v, ParsesTo s.cfg (rxAnswer s) ev v → exec .rxPoll s =
      .next { polled s [.res (0x00 :: eventLayout ev)] with rxver := some v }) ∧
    (ParseInvalidResponse s.cfg (rxAnswer s) → exec .rxPoll s = .next (polled s [.res [0x07]])) ∧
    (ParseInvalidAddress s.cfg (rxAnswer s) → exec .rxPoll s = .next (polled s [.res [0x01]])) ∧
    (ParseUnknownGroup s.cfg (rxAnswer s) → exec .rxPoll s = .next (polled s [.res [0x04]]))

/-- `RX.VER`: the version cell once it is known, `VersionNotYetKnown` before (R226). -/
def Obligations.RxVerAnswer : Prop :=
  ∀ s : State,
    (∀ v, s.rxver = some v → exec .rxVer s = .next (answered s [0x00, v])) ∧
    (s.rxver = none → exec .rxVer s = .next (answered s [0x0B]))

/-- The timed property of the document: the event of a parse has a time exactly when the flag digit is 1, and it is
then 250 ms times the five remaining digits (R223). -/
def Obligations.TimedExactlyWhenFlagIsOne : Prop :=
  ∀ (c : Cfg) (a : Option Bytes) (qs : List (Fin 10 × Fin 10)) (ev : Event) (v w : Byte),
    EventRead c a qs w → parseEvent c a = .ok (ev, v) →
    v = w ∧
    (digitAt qs 14 = 1 → ∃ d, ev.time = some d ∧ d.toInt = 250 * quarterSteps qs) ∧
    (digitAt qs 14 ≠ 1 → ev.time = none)

/-- The version cell is written exactly when a parse returns an event, by `RX.PARSE`, `RX.POLL` and the dispatcher's
step: a parse that faults, every other operation and an observed stop request leave it (R224). -/
def Obligations.VersionCellWrittenOnSuccessOnly : Prop :=
  (∀ (s t : State) (i : Instr), exec i s = .next t →
    (∀ bytes ev v, i = .rxParse bytes → ParsesTo s.cfg (some bytes) ev v → t.rxver = some v) ∧
    (∀ ev v, i = .rxPoll → ParsesTo s.cfg (rxAnswer s) ev v → t.rxver = some v) ∧
    ((∀ bytes ev v, i = .rxParse bytes → ¬ ParsesTo s.cfg (some bytes) ev v) →
      (∀ ev v, i = .rxPoll → ¬ ParsesTo s.cfg (rxAnswer s) ev v) → t.rxver = s.rxver)) ∧
  (∀ s : State,
    (s.stopReq = true → (dispatcherStep s).rxver = s.rxver) ∧
    (s.stopReq = false →
      (∀ ev v, ParsesTo s.cfg (rxAnswer s) ev v → (dispatcherStep s).rxver = some v) ∧
      ((∀ ev v, ¬ ParsesTo s.cfg (rxAnswer s) ev v) → (dispatcherStep s).rxver = s.rxver)))

/-! ### Dispatcher -/

/-- `DSP.ADD`: the entry goes to the end of the table and its index is the answer; a full table is
`IllegalOperation` (R241). The answer is the low 16 bits of the index (assumption log 6). -/
def Obligations.DspAddAnswer : Prop :=
  ∀ (s : State) (cb : Half) (aen cen : Bool) (a : Bytes3) (cmd : Byte),
    ((∀ n, s.cfg.nlis = some n → s.lis.length < n) →
      exec (.dspAdd cb aen cen a cmd) s = .next
        { answered s (0x00 :: bigEndian2 s.lis.length) with
          lis := s.lis ++ [{ cb, aen, addr := a, cen, cmd }] }) ∧
    (∀ n, s.cfg.nlis = some n → n ≤ s.lis.length →
      exec (.dspAdd cb aen cen a cmd) s = .next (answered s [0x0C]))

/-- `DSP.START`: a stopped dispatcher becomes `Running` with no stop request and no latched fault; a running one is
`IllegalOperation` (R243). -/
def Obligations.DspStartAnswer : Prop :=
  ∀ s : State,
    (s.run = false → exec .dspStart s = .next
      { answered s [0x00] with run := true, stopReq := false, dfault := 0 }) ∧
    (s.run = true → exec .dspStart s = .next (answered s [0x0C]))

/-- `DSP.STOP`: requests a stop of a running dispatcher, does nothing to a stopped one (R244). -/
def Obligations.DspStopAnswer : Prop :=
  ∀ s : State,
    (s.run = true → exec .dspStop s = .next { answered s [0x00] with stopReq := true }) ∧
    (s.run = false → exec .dspStop s = .next (answered s [0x00]))

/-- `DSP.EMIT`: the callbacks of the event by the registry's keys, then the number of them; no state is written (R245,
R246, R37). -/
def Obligations.DspEmitAnswer : Prop :=
  ∀ (s : State) (a : Bytes3) (opcode : Byte) (cid : Half) (tv : Bool) (dur : Dur) (ev : Event),
    ev = { addr := a, opcode, cid, time := if tv then some dur else none } →
    exec (.dspEmit a opcode cid tv dur) s = .next
      { s with trace := s.trace ++ deliveries s.lis ev ++
        [.res (0x00 :: bigEndian2 (min (deliveries s.lis ev).length 65535))] }

/-- `SYS.STAT`: the four bytes of `STATUS`, field by field (R42, R249). -/
def Obligations.SysStatAnswer : Prop :=
  ∀ s : State, exec .sysStat s = .next (answered s ([0x00,
      BitVec.ofNat 8 (s.run.toNat + 2 * s.stopReq.toNat + 4 * s.rxver.isSome.toNat + 16 * s.dfault.toNat),
      s.rxver.getD 0x00] ++ bigEndian2 (min s.lis.length 65535)))

/-- `DSP.STEP`, every branch: the stop request is observed before the read; an event is recorded and delivered;
`InvalidResponse` is swallowed; any other fault ends the polling and is latched; a dispatcher that is not `Running`
takes no step (R247, R251). -/
def Obligations.DispatcherStepBranches : Prop :=
  ∀ (s : State) (rest : List Turn), s.agenda = .dispatcher :: rest →
    (s.run = false → step s = .next { s with agenda := rest }) ∧
    (s.run = true → s.stopReq = true →
      step s = .next { s with agenda := rest, run := false, stopReq := false }) ∧
    (s.run = true → s.stopReq = false →
      (∀ ev v, ParsesTo s.cfg (rxAnswer s) ev v →
        step s = .next { polled s (deliveries s.lis ev) with agenda := rest, rxver := some v }) ∧
      (ParseInvalidResponse s.cfg (rxAnswer s) → step s = .next { polled s [] with agenda := rest }) ∧
      (ParseInvalidAddress s.cfg (rxAnswer s) → step s = .next
        { polled s [] with agenda := rest, run := false, stopReq := false, dfault := 0x1 }) ∧
      (ParseUnknownGroup s.cfg (rxAnswer s) → step s = .next
        { polled s [] with agenda := rest, run := false, stopReq := false, dfault := 0x4 }))

/-- The order of one dispatch: the matching entries, each exactly once, no tier before a more specific one, and
within a tier in registration order (R245). -/
def Obligations.DispatchOrder : Prop :=
  ∀ (lis : List Listener) (ev : Event),
    (matching lis ev).Perm (lis.filter fun e => listens e ev) ∧
    (matching lis ev).Pairwise (fun e e' => tier e ≤ tier e') ∧
    (∀ n, (matching lis ev).filter (fun e => tier e == n) =
      (lis.filter fun e => listens e ev).filter (fun e => tier e == n))

/-- An entry matches an event exactly when the key it was registered under is one of the event's four keys, and the
table scan invokes what the registry holds under those keys, in the same order (R37, R242, R245). -/
def Obligations.RegistryAndTableScanAgree : Prop :=
  ∀ (lis : List Listener) (ev : Event),
    (∀ e : Listener, listens e ev = true ↔ listenerKey e ∈ eventKeys ev) ∧
    (matching lis ev).map (fun e => PortEvent.cb e.cb ev) = deliveries lis ev

/-- The document's four-tier property: one listener per tier, registered least specific first, is invoked exactly
once each, most specific first (R248). -/
def Obligations.FourTiersMostSpecificFirst : Prop :=
  ∀ (s : State) (a : Bytes3) (opcode : Byte) (cid : Half) (tv : Bool) (dur : Dur),
    s.lis = [⟨1, false, ⟨0, 0, 0⟩, false, 0⟩, ⟨2, false, ⟨0, 0, 0⟩, true, opcode⟩,
      ⟨3, true, a, false, 0⟩, ⟨4, true, a, true, opcode⟩] →
    ∃ ev t, exec (.dspEmit a opcode cid tv dur) s = .next t ∧
      t.trace = s.trace ++ [.cb 4 ev, .cb 3 ev, .cb 2 ev, .cb 1 ev, .res [0x00, 0x00, 0x04]]

/-- The dispatcher's state machine under host operations: `DSP.START` and `DSP.STOP` move it as the table says and no
other operation changes `RUN`, `STOP_REQ` or `DFAULT` (R251, R41). -/
def Obligations.HostOperationsDriveStateMachine : Prop :=
  ∀ (s t : State) (i : Instr), exec i s = .next t →
    (i = .dspStart → runFlags t = if s.run then runFlags s else (true, false, 0)) ∧
    (i = .dspStop → runFlags t = if s.run then (true, true, s.dfault) else runFlags s) ∧
    (i ≠ .dspStart → i ≠ .dspStop → runFlags t = runFlags s)

/-! ### The whole block -/

/-- Every step keeps the invariant. -/
def Obligations.StepKeepsInvariant : Prop :=
  ∀ s t : State, BlockInv s → step s = .next t → BlockInv t

/-- The reset state meets the invariant. -/
def Obligations.ResetMeetsInvariant : Prop := BlockInv State.reset

/-- No step changes the configuration (R30, R300: a constant parameter of every step). -/
def Obligations.ConfigurationIsConstant : Prop :=
  ∀ s t : State, step s = .next t → t.cfg = s.cfg

/-- Reset is the only way to remove a listener, to clear `RXVER_VALID` and to truncate `TRACE` (R303, R312, R321). -/
def Obligations.OnlyResetForgets : Prop :=
  ∀ s t : State, step s = .next t → s.agenda.head? ≠ some .reset →
    (∃ more, t.lis = s.lis ++ more) ∧ (s.rxver.isSome → t.rxver.isSome) ∧
    (∃ more, t.trace = s.trace ++ more)

/-- After a stop the dispatcher agent polls and delivers nothing until a `DSP.START`: along any run whose agenda holds
no `DSP.START`, the block stays stopped or stop-pending, and each dispatcher turn adds nothing to the history (R311). -/
def Obligations.NoPollAfterStop : Prop :=
  ∀ (n : Nat) (s : State), Halting s → (∀ p, Turn.host p ∈ s.agenda → decode p ≠ .ok .dspStart) →
    Halting (afterSteps n s) ∧
    ((afterSteps n s).agenda.head? = some .dispatcher →
      (afterSteps (n + 1) s).trace = (afterSteps n s).trace ∧
      (afterSteps (n + 1) s).rxReads = (afterSteps n s).rxReads)

/-- Every operand packet, legal or not, is answered with exactly one result packet, which comes last and is a success
with its payload or one byte with a fault code (R94, R271). -/
def Obligations.ExactlyOneResultPerOperation : Prop :=
  ∀ (s t : State) (p : Bytes), hostTurn p s = .next t →
    ∃ es q, t.trace = s.trace ++ es ++ [.res q] ∧ resultLegal q = true ∧ (∀ q', PortEvent.res q' ∉ es)

/-- An operation that faults writes no state; the only thing it can have done beside its result is the port transfers
made before the fault: the exchange of a `TX.*` operation, the read of `RX.POLL` (R287). -/
def Obligations.FaultingOperationWritesNoState : Prop :=
  ∀ (s t : State) (i : Instr) (code : Byte), exec i s = .next t →
    t.trace.getLast? = some (.res [code]) → code ≠ 0x00 →
    (t.run = s.run ∧ t.stopReq = s.stopReq ∧ t.dfault = s.dfault ∧ t.rxver = s.rxver ∧ t.lis = s.lis ∧
      t.cfg = s.cfg) ∧
    (t.trace = s.trace ++ [.res [code]] ∨
      (exchanges i = true ∧ ∃ f, t.trace = s.trace ++ [.txw f, .txr (txAnswer s), .res [code]]) ∨
      (i = .rxPoll ∧ t.trace = s.trace ++ [.rxr (rxAnswer s), .res [code]]))

/-- Which operation can answer with which fault (R284). -/
def Obligations.FaultsPerOperation : Prop :=
  ∀ (s t : State) (i : Instr) (code : Byte), exec i s = .next t →
    t.trace.getLast? = some (.res [code]) → code ≠ 0x00 → code ∈ faultCodesOf i

/-- The codec and transmit operations, `DSP.EMIT` and `SYS.STAT` write no state but the history, and read the receive
adapter never; what they change beside the history is the transmit adapter's answers (R130, R150, R170, R190). -/
def Obligations.CodecOperationsWriteNoState : Prop :=
  ∀ (s t : State) (i : Instr), writesNoState i = true → exec i s = .next t →
    t = { s with trace := t.trace, txAnswers := t.txAnswers, txReads := t.txReads }

/-- `TRACE` is ghost state: an operation adds the same events and does the same to every other field whatever the
history is (R38). -/
def Obligations.TraceIsGhost : Prop :=
  ∀ (i : Instr) (s : State), ∃ (es : List PortEvent) (t : State),
    ∀ h : List PortEvent, exec i { s with trace := h } = .next { t with trace := h ++ es }
end

