-- ==== Sys2Proof/Laws/Encoding.lean ====
section
/-! SUPPORT. Lemmas of the packet fields and formats (30_encoding.md rules R90 to R93). -/

namespace Sys2Proof

/-! ### Big-endian fields -/

/-- The value of two fields laid side by side. -/
theorem toNat_append_eq_add {m n : Nat} (x : BitVec m) (y : BitVec n) :
    (x ++ y).toNat = x.toNat * 2 ^ n + y.toNat := by
  rw [BitVec.toNat_append, ← Nat.shiftLeft_add_eq_or_of_lt y.isLt, Nat.shiftLeft_eq]

/-- The value of a 16-bit field from its bytes (R65). -/
theorem toNat_be16 (b1 b0 : Byte) : (be16 b1 b0).toNat = b1.toNat * 256 + b0.toNat := by
  exact toNat_append_eq_add b1 b0

/-- The value of a 32-bit field from its bytes (R65). -/
theorem toNat_be32 (b3 b2 b1 b0 : Byte) :
    (be32 b3 b2 b1 b0).toNat =
      b3.toNat * 16777216 + b2.toNat * 65536 + b1.toNat * 256 + b0.toNat := by
  simp only [be32, toNat_append_eq_add]; omega

/-- The bytes of a 16-bit field by division (R65). -/
theorem be16Bytes_eq (x : Half) :
    be16Bytes x = [BitVec.ofNat 8 (x.toNat / 256), BitVec.ofNat 8 x.toNat] := by
  simp only [be16Bytes, List.cons.injEq, and_true]
  constructor <;> (apply BitVec.eq_of_toNat_eq; simp [Nat.shiftRight_eq_div_pow])

/-- The bytes of a 32-bit field by division (R65). -/
theorem be32Bytes_eq (x : Dur) :
    be32Bytes x = [BitVec.ofNat 8 (x.toNat / 16777216), BitVec.ofNat 8 (x.toNat / 65536),
      BitVec.ofNat 8 (x.toNat / 256), BitVec.ofNat 8 x.toNat] := by
  simp only [be32Bytes, List.cons.injEq, and_true]
  refine ⟨?_, ?_, ?_, ?_⟩ <;> (apply BitVec.eq_of_toNat_eq; simp [Nat.shiftRight_eq_div_pow])

/-- Writing a 16-bit field that was read gives its bytes back. -/
theorem be16Bytes_be16 (b1 b0 : Byte) : be16Bytes (be16 b1 b0) = [b1, b0] := by
  rw [be16Bytes_eq, toNat_be16]
  have h0 := b0.isLt
  have h1 := b1.isLt
  congr 1
  · apply BitVec.eq_of_toNat_eq; simp; omega
  · congr 1; apply BitVec.eq_of_toNat_eq; simp; omega

/-- Reading a 16-bit field that was written gives it back. -/
theorem be16_be16Bytes (x : Half) :
    be16 (x.extractLsb' 8 8) (x.extractLsb' 0 8) = x := by
  apply BitVec.eq_of_toNat_eq
  have := x.isLt
  simp [toNat_be16, Nat.shiftRight_eq_div_pow]; omega

/-- Reading a 32-bit field that was written gives it back. -/
theorem be32_be32Bytes (x : Dur) :
    be32 (x.extractLsb' 24 8) (x.extractLsb' 16 8) (x.extractLsb' 8 8) (x.extractLsb' 0 8) = x := by
  apply BitVec.eq_of_toNat_eq
  have := x.isLt
  simp [toNat_be32, Nat.shiftRight_eq_div_pow]; omega

/-- Writing a 32-bit field that was read gives its bytes back. -/
theorem be32Bytes_be32 (b3 b2 b1 b0 : Byte) : be32Bytes (be32 b3 b2 b1 b0) = [b3, b2, b1, b0] := by
  rw [be32Bytes_eq, toNat_be32]
  have h0 := b0.isLt
  have h1 := b1.isLt
  have h2 := b2.isLt
  have h3 := b3.isLt
  simp only [List.cons.injEq, and_true]
  refine ⟨?_, ?_, ?_, ?_⟩ <;> (apply BitVec.eq_of_toNat_eq; simp; omega)

theorem be16Bytes_eq_bigEndian2 (x : Half) : be16Bytes x = Machine.bigEndian2 x.toNat := by
  rw [be16Bytes_eq]; rfl

/-! ### One-bit fields -/

/-- A one-bit field has its bits 7:1 zero (R91). -/
theorem flagByte_toNat_le (v : Bool) : (flagByte v).toNat ≤ 1 := by cases v <;> decide

/-- Bit 0 of a one-bit field is its value (R91). -/
theorem flagByte_getElem (v : Bool) : (flagByte v)[0] = v := by cases v <;> decide

/-- `fl` has its bits 7:2 zero (R91). -/
theorem filterByte_toNat_lt (aen cen : Bool) : (filterByte aen cen).toNat < 4 := by
  cases aen <;> cases cen <;> decide

/-- Bit 0 of `fl` is `aen` (R91). -/
theorem filterByte_getElem_zero (aen cen : Bool) : (filterByte aen cen)[0] = aen := by
  cases aen <;> cases cen <;> decide

/-- Bit 1 of `fl` is `cen` (R91). -/
theorem filterByte_getElem_one (aen cen : Bool) : (filterByte aen cen)[1] = cen := by
  cases aen <;> cases cen <;> decide

/-- A byte with bits 7:1 zero is the one-bit field of its bit 0. -/
theorem flagByte_of_lt (b : Byte) (h : b.toNat < 2) : flagByte (b.getLsbD 0) = b := by
  have : ∀ b : Byte, b.toNat < 2 → flagByte (b.getLsbD 0) = b := by decide
  exact this b h

/-- A byte with bits 7:2 zero is the `fl` of its bits 0 and 1. -/
theorem filterByte_of_lt (b : Byte) (h : b.toNat < 4) :
    filterByte (b.getLsbD 0) (b.getLsbD 1) = b := by
  have : ∀ b : Byte, b.toNat < 4 → filterByte (b.getLsbD 0) (b.getLsbD 1) = b := by decide
  exact this b h

/-! ### Byte strings of a known length -/

/-- A byte string of two bytes, written out. -/
theorem exists_of_length_two {l : Bytes} (h : l.length = 2) : ∃ a b, l = [a,b] := by
  rcases l with _ | ⟨a, _ | ⟨b, _ | ⟨c, l⟩⟩⟩ <;> simp at h
  exact ⟨_, _, rfl⟩

/-- A byte string of four bytes, written out. -/
theorem exists_of_length_four {l : Bytes} (h : l.length = 4) : ∃ a b c d, l = [a,b,c,d] := by
  rcases l with _ | ⟨a, _ | ⟨b, l⟩⟩ <;> simp at h
  obtain ⟨c, d, rfl⟩ := exists_of_length_two (l := l) (by simpa using h)
  exact ⟨_, _, _, _, rfl⟩

/-- A byte string of five bytes, written out. -/
theorem exists_of_length_five {l : Bytes} (h : l.length = 5) : ∃ a b c d e, l = [a,b,c,d,e] := by
  rcases l with _ | ⟨a, l⟩ <;> simp at h
  obtain ⟨b, c, d, e, rfl⟩ := exists_of_length_four (l := l) (by simpa using h)
  exact ⟨_, _, _, _, _, rfl⟩

/-- A byte string of six bytes, written out. -/
theorem exists_of_length_six {l : Bytes} (h : l.length = 6) : ∃ a b c d e f, l = [a,b,c,d,e,f] := by
  rcases l with _ | ⟨a, _ | ⟨b, _ | ⟨c, _ | ⟨d, _ | ⟨e, _ | ⟨f, _ | ⟨g, l⟩⟩⟩⟩⟩⟩⟩ <;> simp at h
  exact ⟨_, _, _, _, _, _, rfl⟩

/-- A byte string of seven bytes, written out. -/
theorem exists_of_length_seven {l : Bytes} (h : l.length = 7) : ∃ a b c d e f g, l = [a,b,c,d,e,f,g] := by
  rcases l with _ | ⟨a, l⟩ <;> simp at h
  obtain ⟨b, c, d, e, f, g, rfl⟩ := exists_of_length_six (l := l) (by simpa using h)
  exact ⟨_, _, _, _, _, _, _, rfl⟩

/-- A byte string of eight bytes, written out. -/
theorem exists_of_length_eight {l : Bytes} (h : l.length = 8) : ∃ a b c d e f g i, l = [a,b,c,d,e,f,g,i] := by
  obtain ⟨a, b, l, rfl⟩ : ∃ a b l', l = a :: b :: l' := by
    rcases l with _ | ⟨a, _ | ⟨b, l⟩⟩ <;> simp at h
    exact ⟨_, _, _, rfl⟩
  obtain ⟨c, d, e, f, g, i, rfl⟩ := exists_of_length_six (l := l) (by simpa using h)
  exact ⟨_, _, _, _, _, _, _, _, rfl⟩

/-- A byte string of eleven bytes, written out. -/
theorem exists_of_length_eleven {l : Bytes} (h : l.length = 11) : ∃ a b c d e f g a' b' c' d',
    l = [a,b,c,d,e,f,g,a',b',c',d'] := by
  rcases l with _ | ⟨a, _ | ⟨b, _ | ⟨c, l⟩⟩⟩ <;> simp at h
  obtain ⟨d, e, f, g, a', b', c', d', rfl⟩ := exists_of_length_eight (l := l) (by simpa using h)
  exact ⟨_, _, _, _, _, _, _, _, _, _, _, rfl⟩

/-! ### Formats -/

/-- A counted string and its tail are read back. -/
theorem operandsCounted_counted (k : Nat) (s tail : Bytes) (hs : s.length ≤ 255)
    (ht : tail.length = k) : operandsCounted k (counted s ++ tail) = .ok (s, tail) := by
  have h : (BitVec.ofNat 8 s.length).toNat = s.length := by simp; omega
  simp [counted, operandsCounted, h, ht]

/-- A counted string alone is read back. -/
theorem operandsCounted_counted_nil (s : Bytes) (hs : s.length ≤ 255) :
    operandsCounted 0 (counted s) = .ok (s, []) := by
  simpa using operandsCounted_counted 0 s [] hs rfl

/-- What a successful reading of a counted string says of the bytes. -/
theorem operandsCounted_ok {k : Nat} {ops s tail : Bytes} (h : operandsCounted k ops = .ok (s, tail)) :
    s.length ≤ 255 ∧ tail.length = k ∧ ops = counted s ++ tail := by
  cases ops with
  | nil => simp [operandsCounted] at h
  | cons n rest =>
    simp only [operandsCounted] at h
    split at h
    · rename_i hl
      simp only [Except.ok.injEq, Prod.mk.injEq] at h
      obtain ⟨rfl, rfl⟩ := h
      have := n.isLt
      have hn : (List.take n.toNat rest).length = n.toNat := by simp; omega
      refine ⟨by omega, by simp; omega, ?_⟩
      simp only [counted, hn, List.cons_append, List.take_append_drop]
      simp
    · simp at h

/-- A counted string of the right total length is read. -/
theorem operandsCounted_total {k : Nat} {ops : Bytes} (h1 : 1 ≤ ops.length)
    (h2 : ops.length = 1 + k + (ops.getD 0 0).toNat) :
    ∃ s tail, tail.length = k ∧ operandsCounted k ops = .ok (s, tail) := by
  cases ops with
  | nil => simp at h1
  | cons n rest =>
    simp at h2
    have : rest.length = n.toNat + k := by omega
    exact ⟨rest.take n.toNat, rest.drop n.toNat, by simp; omega, by simp [operandsCounted, this]⟩

/-- What a successful reading of `F0` says of the bytes. -/
theorem operandsF0_ok {j ops i} (h : operandsF0 j ops = .ok i) : ops = [] ∧ i = j := by
  cases ops <;> simp_all [operandsF0]

/-- What a successful reading of `FS` says of the bytes. -/
theorem operandsFS_ok {mk ops i} (h : operandsFS mk ops = .ok i) :
    ∃ s, s.length ≤ 255 ∧ ops = counted s ∧ i = mk s := by
  simp only [operandsFS] at h
  split at h
  · rename_i s tail hc
    obtain ⟨hs, ht, rfl⟩ := operandsCounted_ok hc
    simp at h ht; subst ht
    exact ⟨s, hs, by simp, h.symm⟩
  · simp at h

/-- What a successful reading of `FB` says of the bytes. -/
theorem operandsFB_ok {mk ops i} (h : operandsFB mk ops = .ok i) : ∃ b, ops = [b] ∧ i = mk b := by
  simp only [operandsFB] at h
  split at h <;> simp at h
  exact ⟨_, rfl, h.symm⟩

/-- What a successful reading of `FD` says of the bytes. -/
theorem operandsFD_ok {mk ops i} (h : operandsFD mk ops = .ok i) :
    ∃ d, ops = be32Bytes d ∧ i = mk d := by
  simp only [operandsFD] at h
  split at h <;> simp at h
  exact ⟨_, (be32Bytes_be32 ..).symm, h.symm⟩

/-- What a successful reading of `FW` says of the bytes. -/
theorem operandsFW_ok {mk ops i} (h : operandsFW mk ops = .ok i) :
    ∃ hh mm ss ms, ops = [hh, mm, ss] ++ be16Bytes ms ∧ i = mk hh mm ss ms := by
  simp only [operandsFW] at h
  split at h <;> simp at h
  exact ⟨_, _, _, _, by rw [be16Bytes_be16]; rfl, h.symm⟩

/-- What a successful reading of `FC` says of the bytes. -/
theorem operandsFC_ok {mk ops i} (h : operandsFC mk ops = .ok i) :
    ∃ d, ops = be16Bytes d ∧ i = mk d := by
  simp only [operandsFC] at h
  split at h <;> simp at h
  exact ⟨_, (be16Bytes_be16 ..).symm, h.symm⟩

/-- What a successful reading of `FG` says of the bytes. -/
theorem operandsFG_ok {mk ops i} (h : operandsFG mk ops = .ok i) :
    ∃ idx v, ops = [idx, flagByte v] ∧ i = mk idx v := by
  simp only [operandsFG] at h
  split at h
  · split at h
    · rename_i v hv
      exact ⟨_, _, by rw [flagByte_of_lt v hv], (Except.ok.inj h).symm⟩
    · simp at h
  · simp at h

/-- What a successful reading of `FT1` says of the bytes. -/
theorem operandsFT1_ok {mk ops i} (h : operandsFT1 mk ops = .ok i) :
    ∃ s cid dur, s.length ≤ 255 ∧ ops = counted s ++ (be16Bytes cid ++ be32Bytes dur) ∧ i = mk s cid dur := by
  simp only [operandsFT1] at h
  split at h
  · rename_i s c1 c0 d3 d2 d1 d0 hc
    obtain ⟨hs, ht, rfl⟩ := operandsCounted_ok hc
    simp at h
    exact ⟨s, _, _, hs, by rw [be16Bytes_be16, be32Bytes_be32]; rfl, h.symm⟩
  · simp at h
  · simp at h

/-- What a successful reading of `FT2` says of the bytes. -/
theorem operandsFT2_ok {mk ops i} (h : operandsFT2 mk ops = .ok i) :
    ∃ s cid dur iv, s.length ≤ 255 ∧
      ops = counted s ++ (be16Bytes cid ++ be32Bytes dur ++ be16Bytes iv) ∧ i = mk s cid dur iv := by
  simp only [operandsFT2] at h
  split at h
  · rename_i s c1 c0 d3 d2 d1 d0 i1 i0 hc
    obtain ⟨hs, ht, rfl⟩ := operandsCounted_ok hc
    simp at h
    exact ⟨s, _, _, _, hs, by rw [be16Bytes_be16, be16Bytes_be16, be32Bytes_be32]; rfl, h.symm⟩
  · simp at h
  · simp at h

/-- What a successful reading of `FL` says of the bytes. -/
theorem operandsFL_ok {mk ops i} (h : operandsFL mk ops = .ok i) :
    ∃ cb aen cen a cmd, ops = be16Bytes cb ++ [filterByte aen cen] ++ Bytes3.toList a ++ [cmd] ∧
      i = mk cb aen cen a cmd := by
  simp only [operandsFL] at h
  split at h
  · split at h
    · rename_i c1 c0 v a0 a1 a2 cmd hv
      exact ⟨_, _, _, _, _, by rw [filterByte_of_lt v hv, be16Bytes_be16]; rfl, (Except.ok.inj h).symm⟩
    · simp at h
  · simp at h

/-- What a successful reading of `FE` says of the bytes. -/
theorem operandsFE_ok {mk ops i} (h : operandsFE mk ops = .ok i) :
    ∃ a opcode cid tv dur,
        ops = Bytes3.toList a ++ [opcode] ++ be16Bytes cid ++ [flagByte tv] ++ be32Bytes dur ∧
      i = mk a opcode cid tv dur := by
  simp only [operandsFE] at h
  split at h
  · split at h
    · rename_i v _ _ _ _ hv
      exact ⟨_, _, _, _, _, by rw [flagByte_of_lt v hv, be16Bytes_be16, be32Bytes_be32]; rfl,
          (Except.ok.inj h).symm⟩
    · simp at h
  · simp at h

/-- `FS` is read where its length is right. -/
theorem operandsFS_total {mk ops} (h1 : 1 ≤ ops.length)
    (h2 : ops.length = 1 + (ops.getD 0 0).toNat) : ∃ i, operandsFS mk ops = .ok i := by
  obtain ⟨s, tail, _, h⟩ := operandsCounted_total (k := 0) h1 (by omega)
  simp only [operandsFS, h]; exact ⟨_, rfl⟩

/-- `FT1` is read where its length is right. -/
theorem operandsFT1_total {mk ops} (h1 : 1 ≤ ops.length)
    (h2 : ops.length = 7 + (ops.getD 0 0).toNat) : ∃ i, operandsFT1 mk ops = .ok i := by
  obtain ⟨s, tail, ht, h⟩ := operandsCounted_total (k := 6) h1 (by omega)
  obtain ⟨a, b, c, d, e, f, rfl⟩ := exists_of_length_six ht
  simp only [operandsFT1, h]; exact ⟨_, rfl⟩

/-- `FT2` is read where its length is right. -/
theorem operandsFT2_total {mk ops} (h1 : 1 ≤ ops.length)
    (h2 : ops.length = 9 + (ops.getD 0 0).toNat) : ∃ i, operandsFT2 mk ops = .ok i := by
  obtain ⟨s, tail, ht, h⟩ := operandsCounted_total (k := 8) h1 (by omega)
  obtain ⟨a, b, c, d, e, f, g, i, rfl⟩ := exists_of_length_eight ht
  simp only [operandsFT2, h]; exact ⟨_, rfl⟩

/-- A byte with value `n`. -/
theorem eq_ofNat_of_toNat_eq (b : Byte) (n : Nat) (h : b.toNat = n) : b = BitVec.ofNat 8 n := by
  subst h; simp

end Sys2Proof
end

