-- ==== Sys2Proof/Laws/Address.lean ====
section
/-! SUPPORT. Lemmas of the address codec (40_address_codec.md). -/

namespace Sys2Proof.Machine

/-- The packed decimal reading: the tens digit is the high nibble (R104). -/
theorem digits2BCD_eq_some_iff (b : Byte) (t o : Fin 10) :
    digits2BCD b = some (t, o) ↔ b.toNat = 16 * t.val + o.val := by
  have := b.isLt
  simp [digits2BCD, Fin.ext_iff, Nat.shiftRight_eq_div_pow]
  omega

/-- The decimal expansion of a byte (R104). -/
theorem digits2DIVMOD_eq_some_iff (b : Byte) (t o : Fin 10) :
    digits2DIVMOD b = some (t, o) ↔ b.toNat = 10 * t.val + o.val := by
  simp [digits2DIVMOD, Fin.ext_iff]
  omega

/-- Splitting at the first hyphen. -/
theorem splitHyphen_hyphen (g : Bytes) (h : hyphen ∉ g) (rest : Bytes) :
    splitHyphen (g ++ hyphen :: rest) = g :: splitHyphen rest := by
  induction g with
  | nil => simp [splitHyphen]
  | cons c g ih =>
    simp at h
    simp [splitHyphen, ih h.2, Ne.symm h.1]

/-- Splitting a text without a hyphen. -/
theorem splitHyphen_last (g : Bytes) (h : hyphen ∉ g) : splitHyphen g = [g] := by
  induction g with
  | nil => simp [splitHyphen]
  | cons c g ih =>
    simp at h
    simp [splitHyphen, ih h.2, Ne.symm h.1]

/-- A split has at least one group. -/
theorem splitHyphen_ne_nil (t) : splitHyphen t ≠ [] := by
  cases t with
  | nil => simp [splitHyphen]
  | cons c t =>
    simp only [splitHyphen]; split; simp; split <;> simp

/-- Joining the groups with hyphens gives the text back. -/
theorem splitHyphen_join (t : Bytes) : ([hyphen] : Bytes).intercalate (splitHyphen t) = t := by
  induction t with
  | nil => simp [splitHyphen]
  | cons c t ih =>
    simp only [splitHyphen]
    split
    · rename_i h
      rcases hs : splitHyphen t with _ | ⟨g, gs⟩
      · exact absurd hs (splitHyphen_ne_nil t)
      · rw [hs] at ih; simp [List.intercalate, List.intersperse] at ih ⊢; simp [ih, h]
    · split
      · rename_i hs; exact absurd hs (splitHyphen_ne_nil t)
      · rename_i g gs hs
        rw [hs] at ih
        cases gs <;> simp [List.intercalate, List.intersperse] at ih ⊢ <;> simp [ih]

/-- The digit characters by their codes (R100). -/
theorem isDigitChar_iff (c : Byte) : isDigitChar c = true ↔ 0x31 ≤ c.toNat ∧ c.toNat ≤ 0x34 := by
  simp [isDigitChar]

/-- A digit character is no hyphen. -/
theorem not_hyphen_of_digit {c : Byte} (h : isDigitChar c = true) : hyphen ≠ c := by
  rintro rfl; simp [isDigitChar, hyphen] at h

/-- What a good group of the text is (R132). -/
theorem textGroup_ok {g : Bytes} {a} (h : textGroup g = .ok a) :
    ∃ c0 c1 c2 c3, g = [c0, c1, c2, c3] ∧ isDigitChar c0 ∧ isDigitChar c1 ∧ isDigitChar c2 ∧ isDigitChar c3 ∧
     a = groupEnc (digitValue c0) (digitValue c1) (digitValue c2) (digitValue c3) := by
  simp only [textGroup] at h
  split at h
  · split at h
    · rename_i hd; simp at hd h; exact ⟨_, _, _, _, rfl, hd.1.1.1, hd.1.1.2, hd.1.2, hd.2, h.symm⟩
    · simp at h
  · simp at h

/-- A bad group is `InvalidAddress` (R132). -/
theorem textGroup_fault {g f} (h : textGroup g = .error f) : f = .invalidAddress := by
  simp only [textGroup] at h; split at h
  · split at h <;> simp at h; exact h.symm
  · simp at h; exact h.symm

/-- The address encoder has one fault (R132). -/
theorem addrEnc_error {t f} (h : addrEnc t = .error f) : f = .invalidAddress := by
  simp only [addrEnc] at h
  split at h
  · split at h <;> simp at h; exact h.symm
  · simp at h; exact h.symm

/-- The fold of a group in closed form (R131). -/
theorem groupEnc_eq (d0 d1 d2 d3) :
    groupEnc d0 d1 d2 d3 = BitVec.ofNat 8 ((d0-1)*64 + (d1-1)*16+(d2-1)*4+(d3-1)) := by
  simp [groupEnc]; congr 1; omega

/-- Everything the address encoder answers: the packed form of a valid text, and only that (R132). -/
theorem addrEnc_ok_iff (t : Bytes) (a : Bytes3) : addrEnc t = .ok a ↔ ValidText t ∧ a = packedText t := by
  constructor
  · intro h
    simp only [addrEnc] at h
    split at h
    · rename_i g0 g1 g2 hs
      split at h
      · rename_i a0 a1 a2 h0 h1 h2
        obtain ⟨c0, c1, c2, c3, rfl, k0, k1, k2, k3, rfl⟩ := textGroup_ok h0
        obtain ⟨c4, c5, c6, c7, rfl, k4, k5, k6, k7, rfl⟩ := textGroup_ok h1
        obtain ⟨c8, c9, c10, c11, rfl, k8, k9, k10, k11, rfl⟩ := textGroup_ok h2
        have := splitHyphen_join t
        rw [hs] at this
        simp [List.intercalate, List.intersperse] at this
        subst this
        simp at h; subst h
        simp only [isDigitChar_iff] at *
        refine ⟨⟨by simp, by simp [byteVal, hyphen], by simp [byteVal, hyphen], ?_⟩, ?_⟩
        · intro k hk h4 h9
          interval_cases k <;> simp [byteVal] at * <;> omega
        · simp [packedText, packedGroup, byteVal, groupEnc_eq, digitValue]; refine ⟨?_,?_,?_⟩ <;> congr 1
      · simp at h
    · simp at h
  · rintro ⟨⟨hl, h4, h9, hd⟩, rfl⟩
    obtain ⟨c0, c1, c2, c3, c4, l, rfl⟩ : ∃ a b c d e l', t = a :: b :: c :: d :: e :: l' := by
      rcases t with _ | ⟨a, _ | ⟨b, _ | ⟨c, _ | ⟨d, _ | ⟨e, l⟩⟩⟩⟩⟩ <;> simp at hl
      exact ⟨_, _, _, _, _, _, rfl⟩
    obtain ⟨c5, c6, c7, c8, c9, l, rfl⟩ : ∃ a b c d e l', l = a :: b :: c :: d :: e :: l' := by
      rcases l with _ | ⟨a, _ | ⟨b, _ | ⟨c, _ | ⟨d, _ | ⟨e, l⟩⟩⟩⟩⟩ <;> simp at hl
      exact ⟨_, _, _, _, _, _, rfl⟩
    obtain ⟨c10, c11, c12, c13, rfl⟩ := exists_of_length_four (l := l) (by simpa using hl)
    have hc4 : c4 = hyphen := BitVec.eq_of_toNat_eq (by simpa [byteVal, hyphen] using h4)
    have hc9 : c9 = hyphen := BitVec.eq_of_toNat_eq (by simpa [byteVal, hyphen] using h9)
    subst hc4 hc9
    have k (n : Nat) (c : Byte) (hn : n < 14) (h4 : n ≠ 4) (h9 : n ≠ 9)
      (hc : byteVal ([c0,c1,c2,c3,hyphen,c5,c6,c7,c8,hyphen,c10,c11,c12,c13]) n = c.toNat := by rfl) :
          isDigitChar c = true := by
      rw [isDigitChar_iff]; rw [← hc]; exact hd n hn h4 h9
    have k0 := k 0 c0 (by omega) (by omega) (by omega)
    have k1 := k 1 c1 (by omega) (by omega) (by omega)
    have k2 := k 2 c2 (by omega) (by omega) (by omega)
    have k3 := k 3 c3 (by omega) (by omega) (by omega)
    have k5 := k 5 c5 (by omega) (by omega) (by omega)
    have k6 := k 6 c6 (by omega) (by omega) (by omega)
    have k7 := k 7 c7 (by omega) (by omega) (by omega)
    have k8 := k 8 c8 (by omega) (by omega) (by omega)
    have k10 := k 10 c10 (by omega) (by omega) (by omega)
    have k11 := k 11 c11 (by omega) (by omega) (by omega)
    have k12 := k 12 c12 (by omega) (by omega) (by omega)
    have k13 := k 13 c13 (by omega) (by omega) (by omega)
    have hs : splitHyphen [c0,c1,c2,c3,hyphen,c5,c6,c7,c8,hyphen,c10,c11,c12,c13] = [[c0,c1,c2,c3],[c5,c6,c7,c8],[c10,c11,c12,c13]] := by
      have e1 := splitHyphen_hyphen [c0,c1,c2,c3] (by simp [not_hyphen_of_digit,
          *]) [c5,c6,c7,c8,hyphen,c10,c11,c12,c13]
      have e2 := splitHyphen_hyphen [c5,c6,c7,c8] (by simp [not_hyphen_of_digit, *]) [c10,c11,c12,c13]
      have e3 := splitHyphen_last [c10,c11,c12,c13] (by simp [not_hyphen_of_digit, *])
      simp at e1 e2
      rw [e1, e2, e3]
    simp only [addrEnc, hs, textGroup, k0, k1, k2, k3, k5, k6, k7, k8, k10, k11, k12, k13]
    simp [packedText, packedGroup, byteVal, groupEnc_eq, digitValue]; refine ⟨?_,?_,?_⟩ <;> congr 1

/-- The digits of a packed group by division (R9, R131). -/
theorem groupDigit_eq (b : Byte) : groupDigit b 0 = b.toNat / 64 % 4 + 1 ∧
    groupDigit b 1 = b.toNat / 16 % 4 + 1 ∧
    groupDigit b 2 = b.toNat / 4 % 4 + 1 ∧ groupDigit b 3 = b.toNat % 4 + 1 := by
  simp [groupDigit, Nat.shiftRight_eq_div_pow]

/-- The digit characters of a group in closed form (R101, R134). -/
theorem groupText_eq (b : Byte) : groupText b = groupChars b := by
  simp only [groupText, groupChars, List.map_cons, List.map_nil, groupDigit_eq b, digitChar, pairChar,
    List.cons.injEq, and_true]
  refine ⟨?_, ?_, ?_, ?_⟩ <;> (congr 1; norm_num; try omega)

/-- Packing the digits of a packed group gives it back (R131). -/
theorem groupEnc_groupDigit (b : Byte) :
    groupEnc (groupDigit b 0) (groupDigit b 1) (groupDigit b 2) (groupDigit b 3) = b := by
  have := b.isLt
  simp only [groupEnc_eq, groupDigit_eq b]
  apply BitVec.eq_of_toNat_eq
  simp only [BitVec.toNat_ofNat]
  omega

/-- A digit character is the character of its value. -/
theorem digitChar_digitValue {c : Byte} (h : isDigitChar c = true) : digitChar (digitValue c) = c := by
  rw [isDigitChar_iff] at h
  apply BitVec.eq_of_toNat_eq; simp [digitChar, digitValue]; omega

/-- The text of a packed group of digit characters (R135). -/
theorem groupText_groupEnc {c0 c1 c2 c3 : Byte} (h0 : isDigitChar c0 = true) (h1 : isDigitChar c1 = true)
   (h2 : isDigitChar c2 = true) (h3 : isDigitChar c3 = true) :
   groupText (groupEnc (digitValue c0) (digitValue c1) (digitValue c2) (digitValue c3)) = [c0, c1, c2, c3] := by
  have e (c : Byte) (h : isDigitChar c = true) : 1 ≤ digitValue c ∧ digitValue c ≤ 4 := by
    rw [isDigitChar_iff] at h; simp [digitValue]; omega
  have := e _ h0; have := e _ h1; have := e _ h2; have := e _ h3
  have hg : groupDigit (groupEnc (digitValue c0) (digitValue c1) (digitValue c2) (digitValue c3)) 0 = digitValue c0 ∧
     groupDigit (groupEnc (digitValue c0) (digitValue c1) (digitValue c2) (digitValue c3)) 1 = digitValue c1 ∧ 
     groupDigit (groupEnc (digitValue c0) (digitValue c1) (digitValue c2) (digitValue c3)) 2 = digitValue c2 ∧ 
     groupDigit (groupEnc (digitValue c0) (digitValue c1) (digitValue c2) (digitValue c3)) 3 = digitValue c3  := by
    obtain ⟨e0, e1, e2, e3⟩ := groupDigit_eq (groupEnc (digitValue c0) (digitValue c1) (digitValue c2) (digitValue c3))
    rw [e0, e1, e2, e3]
    simp only [groupEnc_eq, BitVec.toNat_ofNat]
    refine ⟨?_,?_,?_,?_⟩ <;> omega
  simp [groupText, digitChar_digitValue, *]

/-- A decoded group has digit characters only (R134). -/
theorem groupText_isDigitChar (b : Byte) : ∀ c ∈ groupText b, isDigitChar c = true := by
  intro c hc
  simp only [groupText, List.mem_map] at hc
  obtain ⟨p, -, rfl⟩ := hc
  have := (b.extractLsb' (6 - 2 * p) 2).isLt
  rw [isDigitChar_iff]
  simp only [digitChar, groupDigit, BitVec.toNat_ofNat]
  omega

/-- Encoding a decoded group gives it back (R135). -/
theorem textGroup_groupText (b : Byte) : textGroup (groupText b) = .ok b := by
  have h := groupText_isDigitChar b
  simp only [groupText, List.map_cons, List.map_nil, List.forall_mem_cons] at h
  obtain ⟨h0, h1, h2, h3, -⟩ := h
  have e (p : Nat) : digitValue (digitChar (groupDigit b p)) = groupDigit b p := by
    have : groupDigit b p ≤ 4 := by
      have := (b.extractLsb' (6 - 2 * p) 2).isLt
      simp only [groupDigit]; omega
    simp only [digitValue, digitChar, BitVec.toNat_ofNat]; omega
  simp [groupText, textGroup, h0, h1, h2, h3, e, groupEnc_groupDigit]

/-- An address group from its digit pairs, the ranges written out (R136). -/
theorem pairGroup_eq (p q : Fin 10 × Fin 10) : pairGroup p q =
   if (1 ≤ p.1.val ∧ p.1.val ≤ 4) ∧ (1 ≤ p.2.val ∧ p.2.val ≤ 4) ∧ (1 ≤ q.1.val ∧ q.1.val ≤ 4) ∧
       (1 ≤ q.2.val ∧ q.2.val ≤ 4) then
     .ok (groupEnc p.1 p.2 q.1 q.2) else .error .invalidAddress := by
  simp [pairGroup]

/-- Everything the unpacking of six readings answers (R136). -/
theorem unpackPairs_spec (p0 p1 p2 p3 p4 p5 : Fin 10 × Fin 10) (rest) :
   (¬ AddressDigits (p0::p1::p2::p3::p4::p5::rest) 12 →
       unpackPairs p0 p1 p2 p3 p4 p5 = .error .invalidAddress) ∧
   (AddressDigits (p0::p1::p2::p3::p4::p5::rest) 12 → unpackPairs p0 p1 p2 p3 p4 p5 = .ok
     ⟨packedDigits (p0::p1::p2::p3::p4::p5::rest) 0, packedDigits (p0::p1::p2::p3::p4::p5::rest) 4,
         packedDigits (p0::p1::p2::p3::p4::p5::rest) 8⟩) := by
  have e : AddressDigits (p0::p1::p2::p3::p4::p5::rest) 12 ↔
     ((1 ≤ p0.1.val ∧ p0.1.val ≤ 4) ∧ (1 ≤ p0.2.val ∧ p0.2.val ≤ 4) ∧ (1 ≤ p1.1.val ∧ p1.1.val ≤ 4) ∧
         (1 ≤ p1.2.val ∧ p1.2.val ≤ 4)) ∧
     ((1 ≤ p2.1.val ∧ p2.1.val ≤ 4) ∧ (1 ≤ p2.2.val ∧ p2.2.val ≤ 4) ∧ (1 ≤ p3.1.val ∧ p3.1.val ≤ 4) ∧
         (1 ≤ p3.2.val ∧ p3.2.val ≤ 4)) ∧
     ((1 ≤ p4.1.val ∧ p4.1.val ≤ 4) ∧ (1 ≤ p4.2.val ∧ p4.2.val ≤ 4) ∧ (1 ≤ p5.1.val ∧ p5.1.val ≤ 4) ∧
         (1 ≤ p5.2.val ∧ p5.2.val ≤ 4)) := by
    constructor
    · intro h
      exact ⟨⟨h 0 (by omega), h 1 (by omega), h 2 (by omega), h 3 (by omega)⟩, ⟨h 4 (by omega),
          h 5 (by omega), h 6 (by omega), h 7 (by omega)⟩, h 8 (by omega), h 9 (by omega), h 10 (by omega),
          h 11 (by omega)⟩
    · rintro ⟨⟨h0, h1, h2, h3⟩, ⟨h4, h5, h6, h7⟩, h8, h9, h10, h11⟩ k hk
      interval_cases k <;> assumption
  constructor
  · intro h
    rw [e] at h
    simp only [unpackPairs, pairGroup_eq]
    split_ifs <;> first | rfl | (exfalso; tauto)
  · intro h
    rw [e] at h
    obtain ⟨h0, h1, h2⟩ := h
    simp only [unpackPairs, pairGroup_eq, if_pos h0, if_pos h1, if_pos h2]
    simp [packedDigits, digitAt, groupEnc_eq]

/-- Six bytes with six readings, written out. -/
theorem readings_of_six {c} {bytes : Bytes} {qs} (hl : bytes.length = 6) (h :
    bytes.map (digits2 c) = qs.map some) :
   ∃ b0 b1 b2 b3 b4 b5 p0 p1 p2 p3 p4 p5, bytes = [b0,b1,b2,b3,b4,b5] ∧ qs = [p0,p1,p2,p3,p4,p5] ∧
     digits2 c b0 = some p0 ∧ digits2 c b1 = some p1 ∧ digits2 c b2 = some p2 ∧ digits2 c b3 = some p3 ∧
         digits2 c b4 = some p4 ∧ digits2 c b5 = some p5 := by
  obtain ⟨b0,b1,b2,b3,b4,b5, rfl⟩ := exists_of_length_six hl
  have : qs.length = 6 := by simpa using (congrArg List.length h).symm
  rcases qs with _ | ⟨a, _ | ⟨b, _ | ⟨c, _ | ⟨d, _ | ⟨e, _ | ⟨f, _ | ⟨g, l⟩⟩⟩⟩⟩⟩⟩ <;> simp at this
  simp at h
  exact ⟨_,_,_,_,_,_,_,_,_,_,_,_, rfl, rfl, h⟩

/-- The faults of the receive-width unpacking (R136). -/
theorem addrUnp6_fault {c b f} (h : addrUnp6 c b = .error f) : f = .invalidAddress ∨ f = .invalidResponse := by
  simp only [addrUnp6] at h
  split at h
  · split at h
    · simp only [unpackPairs] at h
      split at h <;> simp at h; simp [h]
    · simp at h; simp [h]
  · simp at h; simp [h]

end Sys2Proof.Machine
end

