-- ==== Sys2Proof/Laws/Command.lean ====
section
/-! SUPPORT. Lemmas of the command table (42_command_table.md). -/

namespace Sys2Proof.Machine

/-- The group read is the slot of the table (R62). -/
theorem groupSlot_eq (c idx v) : groupSlot c idx v = slotAt c idx v := by
  simp only [groupSlot, slotAt]
  rw [Vector.getElem?_toList]
  cases c.groupRom[idx]? <;> rfl

/-- There is no slot above index 31 (R62, R109). -/
theorem slotAt_of_index_out_of_range (c idx v) (h : 31 < idx) : slotAt c idx v = none := by
  have : c.groupRom.toList[idx]? = none := by simp; omega
  simp [slotAt, this]

/-- The row of an opcode is found, the opcodes being different (R7 (b), R173). -/
theorem nameFor_ok_of_row {c : Cfg} (hw : c.WellFormed) {cid : Half} {row} (h :
    c.nameRom[cid.toNat]? = some row) :
    nameFor c row.opcode = .ok cid := by
  have hf : c.nameRom.findIdx? (fun r => r.opcode == row.opcode) = some cid.toNat := by
    rw [List.findIdx?_eq_some_iff_getElem]
    obtain ⟨hlt, he⟩ := List.getElem?_eq_some_iff.1 h
    refine ⟨hlt, by simp [he], ?_⟩
    intro j hj
    have hn := hw.opcodesDiffer
    rw [List.Nodup, List.pairwise_iff_getElem] at hn
    have := hn j cid.toNat (by simp; omega) (by simpa using hlt) hj
    simp only [List.getElem_map, he] at this
    simpa using this
  simp [nameFor, hf]

/-- An opcode of no row (R173). -/
theorem nameFor_error {c : Cfg} {opcode} (h : ∀ row ∈ c.nameRom, row.opcode ≠ opcode) :
    nameFor c opcode = .error .invalidCommand := by
  have : c.nameRom.findIdx? (fun r => r.opcode == opcode) = none := by
    rw [List.findIdx?_eq_none_iff]; simpa using h
  simp [nameFor, this]

end Sys2Proof.Machine
end

