-- ==== Sys2Proof/Laws/State.lean ====
section
/-! SUPPORT. One lemma for each field of the state under each named update of it, so that no proof unfolds a record
update. -/

namespace Sys2Proof.Machine

/-! ### `emit` -/

@[simp] theorem emit_run (es : List PortEvent) (s : State) : (emit es s).run = s.run := rfl
@[simp] theorem emit_stopReq (es : List PortEvent) (s : State) : (emit es s).stopReq = s.stopReq := rfl
@[simp] theorem emit_dfault (es : List PortEvent) (s : State) : (emit es s).dfault = s.dfault := rfl
@[simp] theorem emit_rxver (es : List PortEvent) (s : State) : (emit es s).rxver = s.rxver := rfl
@[simp] theorem emit_lis (es : List PortEvent) (s : State) : (emit es s).lis = s.lis := rfl
@[simp] theorem emit_trace (es : List PortEvent) (s : State) : (emit es s).trace = s.trace ++ es := rfl
@[simp] theorem emit_cfg (es : List PortEvent) (s : State) : (emit es s).cfg = s.cfg := rfl
@[simp] theorem emit_agenda (es : List PortEvent) (s : State) : (emit es s).agenda = s.agenda := rfl
@[simp] theorem emit_txAnswers (es : List PortEvent) (s : State) : (emit es s).txAnswers = s.txAnswers := rfl
@[simp] theorem emit_rxAnswers (es : List PortEvent) (s : State) : (emit es s).rxAnswers = s.rxAnswers := rfl
@[simp] theorem emit_txReads (es : List PortEvent) (s : State) : (emit es s).txReads = s.txReads := rfl
@[simp] theorem emit_rxReads (es : List PortEvent) (s : State) : (emit es s).rxReads = s.rxReads := rfl

/-! ### `afterTxRead` -/

@[simp] theorem afterTxRead_run (s : State) : (afterTxRead s).run = s.run := rfl
@[simp] theorem afterTxRead_stopReq (s : State) : (afterTxRead s).stopReq = s.stopReq := rfl
@[simp] theorem afterTxRead_dfault (s : State) : (afterTxRead s).dfault = s.dfault := rfl
@[simp] theorem afterTxRead_rxver (s : State) : (afterTxRead s).rxver = s.rxver := rfl
@[simp] theorem afterTxRead_lis (s : State) : (afterTxRead s).lis = s.lis := rfl
@[simp] theorem afterTxRead_trace (s : State) : (afterTxRead s).trace = s.trace ++ [.txr (txAnswer s)] := rfl
@[simp] theorem afterTxRead_cfg (s : State) : (afterTxRead s).cfg = s.cfg := rfl
@[simp] theorem afterTxRead_agenda (s : State) : (afterTxRead s).agenda = s.agenda := rfl
@[simp] theorem afterTxRead_txAnswers (s : State) : (afterTxRead s).txAnswers = s.txAnswers.tail := rfl
@[simp] theorem afterTxRead_rxAnswers (s : State) : (afterTxRead s).rxAnswers = s.rxAnswers := rfl
@[simp] theorem afterTxRead_txReads (s : State) : (afterTxRead s).txReads = s.txReads + 1 := rfl
@[simp] theorem afterTxRead_rxReads (s : State) : (afterTxRead s).rxReads = s.rxReads := rfl

/-! ### `afterRxRead` -/

@[simp] theorem afterRxRead_run (s : State) : (afterRxRead s).run = s.run := rfl
@[simp] theorem afterRxRead_stopReq (s : State) : (afterRxRead s).stopReq = s.stopReq := rfl
@[simp] theorem afterRxRead_dfault (s : State) : (afterRxRead s).dfault = s.dfault := rfl
@[simp] theorem afterRxRead_rxver (s : State) : (afterRxRead s).rxver = s.rxver := rfl
@[simp] theorem afterRxRead_lis (s : State) : (afterRxRead s).lis = s.lis := rfl
@[simp] theorem afterRxRead_trace (s : State) : (afterRxRead s).trace = s.trace ++ [.rxr (rxAnswer s)] := rfl
@[simp] theorem afterRxRead_cfg (s : State) : (afterRxRead s).cfg = s.cfg := rfl
@[simp] theorem afterRxRead_agenda (s : State) : (afterRxRead s).agenda = s.agenda := rfl
@[simp] theorem afterRxRead_txAnswers (s : State) : (afterRxRead s).txAnswers = s.txAnswers := rfl
@[simp] theorem afterRxRead_rxAnswers (s : State) : (afterRxRead s).rxAnswers = s.rxAnswers.tail := rfl
@[simp] theorem afterRxRead_txReads (s : State) : (afterRxRead s).txReads = s.txReads := rfl
@[simp] theorem afterRxRead_rxReads (s : State) : (afterRxRead s).rxReads = s.rxReads + 1 := rfl

/-! ### `answer` -/

@[simp] theorem answer_run (r : Result Bytes) (s : State) : (answer r s).run = s.run := rfl
@[simp] theorem answer_stopReq (r : Result Bytes) (s : State) : (answer r s).stopReq = s.stopReq := rfl
@[simp] theorem answer_dfault (r : Result Bytes) (s : State) : (answer r s).dfault = s.dfault := rfl
@[simp] theorem answer_rxver (r : Result Bytes) (s : State) : (answer r s).rxver = s.rxver := rfl
@[simp] theorem answer_lis (r : Result Bytes) (s : State) : (answer r s).lis = s.lis := rfl
@[simp] theorem answer_trace (r : Result Bytes) (s : State) :
    (answer r s).trace = s.trace ++ [.res (resultPacket r)] := rfl
@[simp] theorem answer_cfg (r : Result Bytes) (s : State) : (answer r s).cfg = s.cfg := rfl
@[simp] theorem answer_agenda (r : Result Bytes) (s : State) : (answer r s).agenda = s.agenda := rfl
@[simp] theorem answer_txAnswers (r : Result Bytes) (s : State) : (answer r s).txAnswers = s.txAnswers := rfl
@[simp] theorem answer_rxAnswers (r : Result Bytes) (s : State) : (answer r s).rxAnswers = s.rxAnswers := rfl
@[simp] theorem answer_txReads (r : Result Bytes) (s : State) : (answer r s).txReads = s.txReads := rfl
@[simp] theorem answer_rxReads (r : Result Bytes) (s : State) : (answer r s).rxReads = s.rxReads := rfl

/-! ### `raise` -/

@[simp] theorem raise_run (f : FaultKind) (s : State) : (raise f s).run = s.run := rfl
@[simp] theorem raise_stopReq (f : FaultKind) (s : State) : (raise f s).stopReq = s.stopReq := rfl
@[simp] theorem raise_dfault (f : FaultKind) (s : State) : (raise f s).dfault = s.dfault := rfl
@[simp] theorem raise_rxver (f : FaultKind) (s : State) : (raise f s).rxver = s.rxver := rfl
@[simp] theorem raise_lis (f : FaultKind) (s : State) : (raise f s).lis = s.lis := rfl
@[simp] theorem raise_trace (f : FaultKind) (s : State) :
    (raise f s).trace = s.trace ++ [.res (resultPacket (.error f))] := rfl
@[simp] theorem raise_cfg (f : FaultKind) (s : State) : (raise f s).cfg = s.cfg := rfl
@[simp] theorem raise_agenda (f : FaultKind) (s : State) : (raise f s).agenda = s.agenda := rfl
@[simp] theorem raise_txAnswers (f : FaultKind) (s : State) : (raise f s).txAnswers = s.txAnswers := rfl
@[simp] theorem raise_rxAnswers (f : FaultKind) (s : State) : (raise f s).rxAnswers = s.rxAnswers := rfl
@[simp] theorem raise_txReads (f : FaultKind) (s : State) : (raise f s).txReads = s.txReads := rfl
@[simp] theorem raise_rxReads (f : FaultKind) (s : State) : (raise f s).rxReads = s.rxReads := rfl

/-! ### `setRxver` -/

@[simp] theorem setRxver_run (v : Byte) (s : State) : (setRxver v s).run = s.run := rfl
@[simp] theorem setRxver_stopReq (v : Byte) (s : State) : (setRxver v s).stopReq = s.stopReq := rfl
@[simp] theorem setRxver_dfault (v : Byte) (s : State) : (setRxver v s).dfault = s.dfault := rfl
@[simp] theorem setRxver_rxver (v : Byte) (s : State) : (setRxver v s).rxver = some v := rfl
@[simp] theorem setRxver_lis (v : Byte) (s : State) : (setRxver v s).lis = s.lis := rfl
@[simp] theorem setRxver_trace (v : Byte) (s : State) : (setRxver v s).trace = s.trace := rfl
@[simp] theorem setRxver_cfg (v : Byte) (s : State) : (setRxver v s).cfg = s.cfg := rfl
@[simp] theorem setRxver_agenda (v : Byte) (s : State) : (setRxver v s).agenda = s.agenda := rfl
@[simp] theorem setRxver_txAnswers (v : Byte) (s : State) : (setRxver v s).txAnswers = s.txAnswers := rfl
@[simp] theorem setRxver_rxAnswers (v : Byte) (s : State) : (setRxver v s).rxAnswers = s.rxAnswers := rfl
@[simp] theorem setRxver_txReads (v : Byte) (s : State) : (setRxver v s).txReads = s.txReads := rfl
@[simp] theorem setRxver_rxReads (v : Byte) (s : State) : (setRxver v s).rxReads = s.rxReads := rfl

/-! ### `startRunning` -/

@[simp] theorem startRunning_run (s : State) : (startRunning s).run = true := rfl
@[simp] theorem startRunning_stopReq (s : State) : (startRunning s).stopReq = false := rfl
@[simp] theorem startRunning_dfault (s : State) : (startRunning s).dfault = 0 := rfl
@[simp] theorem startRunning_rxver (s : State) : (startRunning s).rxver = s.rxver := rfl
@[simp] theorem startRunning_lis (s : State) : (startRunning s).lis = s.lis := rfl
@[simp] theorem startRunning_trace (s : State) : (startRunning s).trace = s.trace := rfl
@[simp] theorem startRunning_cfg (s : State) : (startRunning s).cfg = s.cfg := rfl
@[simp] theorem startRunning_agenda (s : State) : (startRunning s).agenda = s.agenda := rfl
@[simp] theorem startRunning_txAnswers (s : State) : (startRunning s).txAnswers = s.txAnswers := rfl
@[simp] theorem startRunning_rxAnswers (s : State) : (startRunning s).rxAnswers = s.rxAnswers := rfl
@[simp] theorem startRunning_txReads (s : State) : (startRunning s).txReads = s.txReads := rfl
@[simp] theorem startRunning_rxReads (s : State) : (startRunning s).rxReads = s.rxReads := rfl

/-! ### `requestStop` -/

@[simp] theorem requestStop_run (s : State) : (requestStop s).run = s.run := rfl
@[simp] theorem requestStop_stopReq (s : State) : (requestStop s).stopReq = (s.run || s.stopReq) := rfl
@[simp] theorem requestStop_dfault (s : State) : (requestStop s).dfault = s.dfault := rfl
@[simp] theorem requestStop_rxver (s : State) : (requestStop s).rxver = s.rxver := rfl
@[simp] theorem requestStop_lis (s : State) : (requestStop s).lis = s.lis := rfl
@[simp] theorem requestStop_trace (s : State) : (requestStop s).trace = s.trace := rfl
@[simp] theorem requestStop_cfg (s : State) : (requestStop s).cfg = s.cfg := rfl
@[simp] theorem requestStop_agenda (s : State) : (requestStop s).agenda = s.agenda := rfl
@[simp] theorem requestStop_txAnswers (s : State) : (requestStop s).txAnswers = s.txAnswers := rfl
@[simp] theorem requestStop_rxAnswers (s : State) : (requestStop s).rxAnswers = s.rxAnswers := rfl
@[simp] theorem requestStop_txReads (s : State) : (requestStop s).txReads = s.txReads := rfl
@[simp] theorem requestStop_rxReads (s : State) : (requestStop s).rxReads = s.rxReads := rfl

/-! ### `observeStop` -/

@[simp] theorem observeStop_run (s : State) : (observeStop s).run = false := rfl
@[simp] theorem observeStop_stopReq (s : State) : (observeStop s).stopReq = false := rfl
@[simp] theorem observeStop_dfault (s : State) : (observeStop s).dfault = s.dfault := rfl
@[simp] theorem observeStop_rxver (s : State) : (observeStop s).rxver = s.rxver := rfl
@[simp] theorem observeStop_lis (s : State) : (observeStop s).lis = s.lis := rfl
@[simp] theorem observeStop_trace (s : State) : (observeStop s).trace = s.trace := rfl
@[simp] theorem observeStop_cfg (s : State) : (observeStop s).cfg = s.cfg := rfl
@[simp] theorem observeStop_agenda (s : State) : (observeStop s).agenda = s.agenda := rfl
@[simp] theorem observeStop_txAnswers (s : State) : (observeStop s).txAnswers = s.txAnswers := rfl
@[simp] theorem observeStop_rxAnswers (s : State) : (observeStop s).rxAnswers = s.rxAnswers := rfl
@[simp] theorem observeStop_txReads (s : State) : (observeStop s).txReads = s.txReads := rfl
@[simp] theorem observeStop_rxReads (s : State) : (observeStop s).rxReads = s.rxReads := rfl

/-! ### `latchFault` -/

@[simp] theorem latchFault_run (f : FaultKind) (s : State) : (latchFault f s).run = false := rfl
@[simp] theorem latchFault_stopReq (f : FaultKind) (s : State) : (latchFault f s).stopReq = false := rfl
@[simp] theorem latchFault_dfault (f : FaultKind) (s : State) : (latchFault f s).dfault = faultCode f := rfl
@[simp] theorem latchFault_rxver (f : FaultKind) (s : State) : (latchFault f s).rxver = s.rxver := rfl
@[simp] theorem latchFault_lis (f : FaultKind) (s : State) : (latchFault f s).lis = s.lis := rfl
@[simp] theorem latchFault_trace (f : FaultKind) (s : State) : (latchFault f s).trace = s.trace := rfl
@[simp] theorem latchFault_cfg (f : FaultKind) (s : State) : (latchFault f s).cfg = s.cfg := rfl
@[simp] theorem latchFault_agenda (f : FaultKind) (s : State) : (latchFault f s).agenda = s.agenda := rfl
@[simp] theorem latchFault_txAnswers (f : FaultKind) (s : State) : (latchFault f s).txAnswers = s.txAnswers := rfl
@[simp] theorem latchFault_rxAnswers (f : FaultKind) (s : State) : (latchFault f s).rxAnswers = s.rxAnswers := rfl
@[simp] theorem latchFault_txReads (f : FaultKind) (s : State) : (latchFault f s).txReads = s.txReads := rfl
@[simp] theorem latchFault_rxReads (f : FaultKind) (s : State) : (latchFault f s).rxReads = s.rxReads := rfl

/-! ### `appendListener` -/

@[simp] theorem appendListener_run (e : Listener) (s : State) : (appendListener e s).run = s.run := rfl
@[simp] theorem appendListener_stopReq (e : Listener) (s : State) : (appendListener e s).stopReq = s.stopReq := rfl
@[simp] theorem appendListener_dfault (e : Listener) (s : State) : (appendListener e s).dfault = s.dfault := rfl
@[simp] theorem appendListener_rxver (e : Listener) (s : State) : (appendListener e s).rxver = s.rxver := rfl
@[simp] theorem appendListener_lis (e : Listener) (s : State) : (appendListener e s).lis = s.lis ++ [e] := rfl
@[simp] theorem appendListener_trace (e : Listener) (s : State) : (appendListener e s).trace = s.trace := rfl
@[simp] theorem appendListener_cfg (e : Listener) (s : State) : (appendListener e s).cfg = s.cfg := rfl
@[simp] theorem appendListener_agenda (e : Listener) (s : State) : (appendListener e s).agenda = s.agenda := rfl
@[simp] theorem appendListener_txAnswers (e : Listener) (s : State) :
    (appendListener e s).txAnswers = s.txAnswers := rfl
@[simp] theorem appendListener_rxAnswers (e : Listener) (s : State) :
    (appendListener e s).rxAnswers = s.rxAnswers := rfl
@[simp] theorem appendListener_txReads (e : Listener) (s : State) : (appendListener e s).txReads = s.txReads := rfl
@[simp] theorem appendListener_rxReads (e : Listener) (s : State) : (appendListener e s).rxReads = s.rxReads := rfl

/-! ### `dispatch` -/

@[simp] theorem dispatch_run (ev : Event) (s : State) : (dispatch ev s).run = s.run := rfl
@[simp] theorem dispatch_stopReq (ev : Event) (s : State) : (dispatch ev s).stopReq = s.stopReq := rfl
@[simp] theorem dispatch_dfault (ev : Event) (s : State) : (dispatch ev s).dfault = s.dfault := rfl
@[simp] theorem dispatch_rxver (ev : Event) (s : State) : (dispatch ev s).rxver = s.rxver := rfl
@[simp] theorem dispatch_lis (ev : Event) (s : State) : (dispatch ev s).lis = s.lis := rfl
@[simp] theorem dispatch_trace (ev : Event) (s : State) :
    (dispatch ev s).trace = s.trace ++ (matching s.lis ev).map fun e => .cb e.cb ev := rfl
@[simp] theorem dispatch_cfg (ev : Event) (s : State) : (dispatch ev s).cfg = s.cfg := rfl
@[simp] theorem dispatch_agenda (ev : Event) (s : State) : (dispatch ev s).agenda = s.agenda := rfl
@[simp] theorem dispatch_txAnswers (ev : Event) (s : State) : (dispatch ev s).txAnswers = s.txAnswers := rfl
@[simp] theorem dispatch_rxAnswers (ev : Event) (s : State) : (dispatch ev s).rxAnswers = s.rxAnswers := rfl
@[simp] theorem dispatch_txReads (ev : Event) (s : State) : (dispatch ev s).txReads = s.txReads := rfl
@[simp] theorem dispatch_rxReads (ev : Event) (s : State) : (dispatch ev s).rxReads = s.rxReads := rfl

/-! ### `resetEvent` -/

@[simp] theorem resetEvent_run (s : State) : (resetEvent s).run = false := rfl
@[simp] theorem resetEvent_stopReq (s : State) : (resetEvent s).stopReq = false := rfl
@[simp] theorem resetEvent_dfault (s : State) : (resetEvent s).dfault = 0 := rfl
@[simp] theorem resetEvent_rxver (s : State) : (resetEvent s).rxver = none := rfl
@[simp] theorem resetEvent_lis (s : State) : (resetEvent s).lis = [] := rfl
@[simp] theorem resetEvent_trace (s : State) : (resetEvent s).trace = [] := rfl
@[simp] theorem resetEvent_cfg (s : State) : (resetEvent s).cfg = s.cfg := rfl
@[simp] theorem resetEvent_agenda (s : State) : (resetEvent s).agenda = s.agenda := rfl
@[simp] theorem resetEvent_txAnswers (s : State) : (resetEvent s).txAnswers = s.txAnswers := rfl
@[simp] theorem resetEvent_rxAnswers (s : State) : (resetEvent s).rxAnswers = s.rxAnswers := rfl
@[simp] theorem resetEvent_txReads (s : State) : (resetEvent s).txReads = s.txReads := rfl
@[simp] theorem resetEvent_rxReads (s : State) : (resetEvent s).rxReads = s.rxReads := rfl

/-! ### `presentPacket` -/

@[simp] theorem presentPacket_run (p : Bytes) (s : State) : (presentPacket p s).run = s.run := rfl
@[simp] theorem presentPacket_stopReq (p : Bytes) (s : State) : (presentPacket p s).stopReq = s.stopReq := rfl
@[simp] theorem presentPacket_dfault (p : Bytes) (s : State) : (presentPacket p s).dfault = s.dfault := rfl
@[simp] theorem presentPacket_rxver (p : Bytes) (s : State) : (presentPacket p s).rxver = s.rxver := rfl
@[simp] theorem presentPacket_lis (p : Bytes) (s : State) : (presentPacket p s).lis = s.lis := rfl
@[simp] theorem presentPacket_trace (p : Bytes) (s : State) : (presentPacket p s).trace = s.trace := rfl
@[simp] theorem presentPacket_cfg (p : Bytes) (s : State) : (presentPacket p s).cfg = s.cfg := rfl
@[simp] theorem presentPacket_agenda (p : Bytes) (s : State) :
    (presentPacket p s).agenda = .host p :: s.agenda := rfl
@[simp] theorem presentPacket_txAnswers (p : Bytes) (s : State) :
    (presentPacket p s).txAnswers = s.txAnswers := rfl
@[simp] theorem presentPacket_rxAnswers (p : Bytes) (s : State) :
    (presentPacket p s).rxAnswers = s.rxAnswers := rfl
@[simp] theorem presentPacket_txReads (p : Bytes) (s : State) : (presentPacket p s).txReads = s.txReads := rfl
@[simp] theorem presentPacket_rxReads (p : Bytes) (s : State) : (presentPacket p s).rxReads = s.rxReads := rfl

end Sys2Proof.Machine
end

