-- ==== Sys2Proof/Laws/Receive.lean ====
section
/-! SUPPORT. Lemmas of the frame decoder (44_receive.md). -/

namespace Sys2Proof.Machine

/-- An event read, byte by byte (R107, R108). -/
theorem eventRead_iff (c a qs v) : EventRead c a qs v ↔
    ∃ b0 b1 b2 b3 b4 b5 b6 b7 b8 b9 p0 p1 p2 p3 p4 p5 p6 p7 p8 p9,
    a = some [c.rxHdr.b0, c.rxHdr.b1, b0,b1,b2,b3,b4,b5,b6,b7,b8,b9,v] ∧ qs = [p0,p1,p2,p3,p4,p5,p6,p7,p8,p9] ∧
    digits2 c b0 = some p0 ∧ digits2 c b1 = some p1 ∧ digits2 c b2 = some p2 ∧ digits2 c b3 = some p3 ∧
        digits2 c b4 = some p4 ∧
    digits2 c b5 = some p5 ∧ digits2 c b6 = some p6 ∧ digits2 c b7 = some p7 ∧ digits2 c b8 = some p8 ∧
        digits2 c b9 = some p9 := by
  constructor
  · rintro ⟨body, hl, hq, rfl⟩
    rcases body with _ | ⟨b0, _ | ⟨b1, _ | ⟨b2, _ | ⟨b3, body⟩⟩⟩⟩ <;> simp at hl
    obtain ⟨b4,b5,b6,b7,b8,b9, rfl⟩ := exists_of_length_six (l := body) (by simpa using hl)
    have : qs.length = 10 := by simpa using (congrArg List.length hq).symm
    rcases qs with _ | ⟨p0, _ | ⟨p1, _ | ⟨p2, _ | ⟨p3, _ | ⟨p4, _ | ⟨p5, _ | ⟨p6, _ | ⟨p7, _ | ⟨p8,
        _ | ⟨p9, _ | ⟨p10, l⟩⟩⟩⟩⟩⟩⟩⟩⟩⟩⟩ <;> simp at this
    simp at hq
    exact ⟨_,_,_,_,_,_,_,_,_,_,_,_,_,_,_,_,_,_,_,_, rfl, rfl, hq⟩
  · rintro ⟨b0,b1,b2,b3,b4,b5,b6,b7,b8,b9,p0,p1,p2,p3,p4,p5,p6,p7,p8,p9, rfl, rfl, h⟩
    exact ⟨[b0,b1,b2,b3,b4,b5,b6,b7,b8,b9], rfl, by simp [h], rfl⟩

/-- An event read has one reading. -/
theorem eventRead_unique {c a qs v qs' v'} (h : EventRead c a qs v) (h' : EventRead c a qs' v') :
    qs = qs' ∧ v = v' := by
  obtain ⟨body, hl, hq, ha⟩ := h
  obtain ⟨body', hl', hq', ha'⟩ := h'
  rw [ha] at ha'
  have e := Option.some.inj ha'
  have := List.append_inj' e rfl
  have hb := (List.append_inj this.1 rfl).2
  subst hb
  refine ⟨?_, by simpa using this.2⟩
  rw [hq] at hq'
  exact (List.map_injective_iff.2 (Option.some_injective _)) hq'

/-- Everything the reading of a body answers (R222). -/
theorem readEvent_spec (c p0 p1 p2 p3 p4 p5 p6 p7 p8 p9) (qs) (hq : qs = [p0,p1,p2,p3,p4,p5,p6,p7,p8,p9]) :
  (¬ AddressDigits qs 12 → readEvent c p0 p1 p2 p3 p4 p5 p6 p7 p8 p9 = .error .invalidAddress) ∧
  (AddressDigits qs 12 → slotAt c (groupIndex qs) (timedFlag qs) = none →
     readEvent c p0 p1 p2 p3 p4 p5 p6 p7 p8 p9 = .error .unknownCommandGroup) ∧
  (∀ row, AddressDigits qs 12 → slotAt c (groupIndex qs) (timedFlag qs) = some row →
     readEvent c p0 p1 p2 p3 p4 p5 p6 p7 p8 p9 = .ok
       { addr := ⟨packedDigits qs 0, packedDigits qs 4, packedDigits qs 8⟩,
         opcode := row.opcode, cid := row.cid,
         time := if timedFlag qs then some (BitVec.ofNat 32 (250 * quarterSteps qs)) else none }) := by
  subst hq
  have hu := unpackPairs_spec p0 p1 p2 p3 p4 p5 [p6,p7,p8,p9]
  have e1 : groupIndex [p0,p1,p2,p3,p4,p5,p6,p7,p8,p9] = twoDigits p6 := rfl
  have e2 : timedFlag [p0,p1,p2,p3,p4,p5,p6,p7,p8,p9] = (p7.1.val == 1) := rfl
  have e3 : quarterSteps [p0,p1,p2,p3,p4,p5,p6,p7,p8,p9] = timeFieldCount p7 p8 p9 := rfl
  rw [e1, e2, e3]
  refine ⟨?_, ?_, ?_⟩
  · intro h; simp only [readEvent, hu.1 h]; rfl
  · intro h hs; simp only [readEvent, hu.2 h, lookupGroup, groupSlot_eq, hs, bind, Except.bind]
  · intro row h hs; simp only [readEvent, hu.2 h, lookupGroup, groupSlot_eq, hs, bind, Except.bind,
        Nat.mul_comm 250]; rfl

/-- A read that parses (R222). -/
theorem parseEvent_of_parsesTo {c a ev v} (h : ParsesTo c a ev v) : parseEvent c a = .ok (ev, v) := by
  obtain ⟨qs, row, hr, hd, hs, rfl⟩ := h
  obtain ⟨b0,b1,b2,b3,b4,b5,b6,b7,b8,b9,p0,p1,p2,p3,p4,p5,p6,p7,p8,p9, rfl, hq,
      h0,h1,h2,h3,h4,h5,h6,h7,h8,h9⟩ := (eventRead_iff _ _ _ _).1 hr
  simp only [parseEvent, if_true, h0,h1,h2,h3,h4,h5,h6,h7,h8,h9,
      (readEvent_spec c _ _ _ _ _ _ _ _ _ _ qs hq).2.2 row hd hs]; rfl

/-- A read with a bad address (R222). -/
theorem parseEvent_of_invalidAddress {c a} (h : ParseInvalidAddress c a) :
    parseEvent c a = .error .invalidAddress := by
  obtain ⟨qs, v, hr, hd⟩ := h
  obtain ⟨b0,b1,b2,b3,b4,b5,b6,b7,b8,b9,p0,p1,p2,p3,p4,p5,p6,p7,p8,p9, rfl, hq,
      h0,h1,h2,h3,h4,h5,h6,h7,h8,h9⟩ := (eventRead_iff _ _ _ _).1 hr
  simp only [parseEvent, if_true, h0,h1,h2,h3,h4,h5,h6,h7,h8,h9,
      (readEvent_spec c _ _ _ _ _ _ _ _ _ _ qs hq).1 hd]; rfl

/-- A read with a reserved or absent group slot (R222). -/
theorem parseEvent_of_unknownGroup {c a} (h : ParseUnknownGroup c a) :
    parseEvent c a = .error .unknownCommandGroup := by
  obtain ⟨qs, v, hr, hd, hs⟩ := h
  obtain ⟨b0,b1,b2,b3,b4,b5,b6,b7,b8,b9,p0,p1,p2,p3,p4,p5,p6,p7,p8,p9, rfl, hq,
      h0,h1,h2,h3,h4,h5,h6,h7,h8,h9⟩ := (eventRead_iff _ _ _ _).1 hr
  simp only [parseEvent, if_true, h0,h1,h2,h3,h4,h5,h6,h7,h8,h9,
      (readEvent_spec c _ _ _ _ _ _ _ _ _ _ qs hq).2.1 hd hs]; rfl

/-- A read that is no event read (R222). -/
theorem parseEvent_of_invalidResponse {c a} (h : ParseInvalidResponse c a) :
    parseEvent c a = .error .invalidResponse := by
  simp only [parseEvent]
  split
  · split
    · split
      · rename_i x1 x2 b0 b1 b2 b3 b4 b5 b6 b7 b8 b9 v hh _ _ _ _ _ _ _ _ _ _ p0 p1 p2 p3 p4 p5 p6 p7 p8 p9 h0 h1 h2 h3 h4 h5 h6 h7 h8 h9
        exfalso
        apply h [p0,p1,p2,p3,p4,p5,p6,p7,p8,p9] v
        rw [eventRead_iff]
        exact ⟨b0,b1,b2,b3,b4,b5,b6,b7,b8,b9,p0,p1,p2,p3,p4,p5,p6,p7,p8,p9, by simp [← hh], rfl,
            h0,h1,h2,h3,h4,h5,h6,h7,h8,h9⟩
      · rfl
    · rfl
  · rfl

/-- Every read falls under one of the four (R222, R310). -/
theorem parse_outcome_cases (c a) : (∃ ev v, ParsesTo c a ev v) ∨ ParseInvalidResponse c a ∨
    ParseInvalidAddress c a ∨
      ParseUnknownGroup c a := by
  by_cases h : ∃ qs v, EventRead c a qs v
  · obtain ⟨qs, v, h⟩ := h
    by_cases hd : AddressDigits qs 12
    · rcases hs : slotAt c (groupIndex qs) (timedFlag qs) with _ | row
      · exact .inr (.inr (.inr ⟨qs, v, h, hd, hs⟩))
      · exact .inl ⟨_, v, qs, row, h, hd, hs, rfl⟩
    · exact .inr (.inr (.inl ⟨qs, v, h, hd⟩))
  · exact .inr (.inl (by simpa [ParseInvalidResponse] using h))

/-- The parser returns what the rules say (R222). -/
theorem parsesTo_of_parseEvent {c a ev v} (h : parseEvent c a = .ok (ev, v)) : ParsesTo c a ev v := by
  rcases parse_outcome_cases c a with ⟨ev', v', h'⟩ | h' | h' | h'
  · have := (parseEvent_of_parsesTo h').symm.trans h; simp at this; obtain ⟨rfl, rfl⟩ := this; exact h'
  · have := (parseEvent_of_invalidResponse h').symm.trans h; simp at this
  · have := (parseEvent_of_invalidAddress h').symm.trans h; simp at this
  · have := (parseEvent_of_unknownGroup h').symm.trans h; simp at this

/-- A read the parser calls `InvalidResponse` is one by the rules (R222). -/
theorem invalidResponse_of_parseEvent {c a} (h : parseEvent c a = .error .invalidResponse) :
    ParseInvalidResponse c a := by
  rcases parse_outcome_cases c a with ⟨ev, v, h'⟩ | h' | h' | h'
  · simp [parseEvent_of_parsesTo h'] at h
  · exact h'
  · simp [parseEvent_of_invalidAddress h'] at h
  · simp [parseEvent_of_unknownGroup h'] at h

/-- A read the parser calls `InvalidAddress` is one by the rules (R222). -/
theorem invalidAddress_of_parseEvent {c a} (h : parseEvent c a = .error .invalidAddress) :
    ParseInvalidAddress c a := by
  rcases parse_outcome_cases c a with ⟨ev, v, h'⟩ | h' | h' | h'
  · simp [parseEvent_of_parsesTo h'] at h
  · simp [parseEvent_of_invalidResponse h'] at h
  · exact h'
  · simp [parseEvent_of_unknownGroup h'] at h

/-- A read the parser calls `UnknownCommandGroup` is one by the rules (R222). -/
theorem unknownGroup_of_parseEvent {c a} (h : parseEvent c a = .error .unknownCommandGroup) :
    ParseUnknownGroup c a := by
  rcases parse_outcome_cases c a with ⟨ev, v, h'⟩ | h' | h' | h'
  · simp [parseEvent_of_parsesTo h'] at h
  · simp [parseEvent_of_invalidResponse h'] at h
  · simp [parseEvent_of_invalidAddress h'] at h
  · exact h'

/-- The faults of the parser (R222). -/
theorem parseEvent_fault {c a f} (h : parseEvent c a = .error f) : f = .invalidResponse ∨
    f = .invalidAddress ∨ f = .unknownCommandGroup := by
  rcases parse_outcome_cases c a with ⟨ev', v', h'⟩ | h' | h' | h'
  · have := (parseEvent_of_parsesTo h').symm.trans h; simp at this
  · have := (parseEvent_of_invalidResponse h').symm.trans h; simp at this; simp [this]
  · have := (parseEvent_of_invalidAddress h').symm.trans h; simp at this; simp [this]
  · have := (parseEvent_of_unknownGroup h').symm.trans h; simp at this; simp [this]

/-- An event in a result packet, byte by byte (R98). -/
theorem eventBytes_eq_eventLayout (ev) : eventBytes ev = eventLayout ev := by
  rcases ev with ⟨⟨a0,a1,a2⟩, o, c, t⟩
  rcases t with _ | d
  · simp [eventBytes, eventLayout, Bytes3.toList, be16Bytes_eq_bigEndian2, flagByte, be32Bytes]
  · simp [eventBytes, eventLayout, Bytes3.toList, be16Bytes_eq_bigEndian2, flagByte, be32Bytes_eq, bigEndian4]

/-- A parse for the host adds one result. -/
theorem receive_trace_append (a s) : ∃ q, (receive a s).trace = s.trace ++ [.res q] := by
  simp only [receive]; split <;> exact ⟨_, rfl⟩

/-- A parse for the host and the version cell (R224). -/
theorem receive_rxver {a s} : (receive a s).rxver = s.rxver ∨ ∃ ev v, (receive a s).rxver = some v ∧
    ParsesTo s.cfg a ev v := by
  simp only [receive]
  split
  · rename_i ev v h; exact .inr ⟨ev, v, rfl, parsesTo_of_parseEvent h⟩
  · exact .inl rfl

/-- A parse for the host does not read the history (R38). -/
theorem receive_trace_ghost (a) (s : State) : ∃ (es : List PortEvent) (t : State), ∀ h : List PortEvent,
    receive a { s with trace := h } = { t with trace := h ++ es } := by
  simp only [receive]
  cases parseEvent s.cfg a with
  | ok r => exact ⟨_, { s with rxver := some r.2}, fun h => rfl⟩
  | error f => exact ⟨_, s, fun h => rfl⟩

end Sys2Proof.Machine
end

