-- ==== Sys2Proof/Laws/Dispatcher.lean ====
section
/-! SUPPORT. Lemmas of the dispatcher and of the status word (45_dispatcher.md). -/

namespace Sys2Proof.Machine

/-- The listener table is full (R241). -/
theorem tableFull_iff (s) : tableFull s = true ↔ ∃ n, s.cfg.nlis = some n ∧ n ≤ s.lis.length := by
  simp only [tableFull, lcount]
  rcases s.cfg.nlis with _ | n
  · simp
  · simp only [Option.some.injEq, exists_eq_left']; exact ⟨of_decide_eq_true, fun h => decide_eq_true h⟩

/-- The key of an entry by its tier (R37, R242). -/
theorem tier_key (e : Listener) : listenerKey e = match tier e with
   | 0 => (some e.addr, some e.cmd) | 1 => (some e.addr, none) | 2 => (none, some e.cmd) | _ => (none,
       none) := by
  rcases e with ⟨cb, aen, addr, cen, cmd⟩
  cases aen <;> cases cen <;> rfl

/-- Tier 0 and a match is the first key (R242). -/
theorem key_of_tier_zero (e ev) : (tier e == 0 && listens e ev) = (listenerKey e == (some ev.addr,
    some ev.opcode)) := by
  rcases e with ⟨cb, aen, addr, cen, cmd⟩
  cases aen <;> cases cen <;> simp [tier, listens, listenerKey]; rfl

/-- Tier 1 and a match is the second key (R242). -/
theorem key_of_tier_one (e ev) : (tier e == 1 && listens e ev) = (listenerKey e == (some ev.addr, none)) := by
  rcases e with ⟨cb, aen, addr, cen, cmd⟩
  cases aen <;> cases cen <;> simp [tier, listens, listenerKey]

/-- Tier 2 and a match is the third key (R242). -/
theorem key_of_tier_two (e ev) : (tier e == 2 && listens e ev) = (listenerKey e == (none, some ev.opcode)) := by
  rcases e with ⟨cb, aen, addr, cen, cmd⟩
  cases aen <;> cases cen <;> simp [tier, listens, listenerKey]

/-- Tier 3 and a match is the fourth key (R242). -/
theorem key_of_tier_three (e ev) : (tier e == 3 && listens e ev) = (listenerKey e == (none, none)) := by
  rcases e with ⟨cb, aen, addr, cen, cmd⟩
  cases aen <;> cases cen <;> simp [tier, listens, listenerKey]

/-- The table scan delivers what the registry holds (R37, R245). -/
theorem matching_map_eq_deliveries (lis ev) :
    (matching lis ev).map (fun e => PortEvent.cb e.cb ev) = deliveries lis ev := by
  simp [matching, deliveries, eventKeys, List.flatMap_cons, key_of_tier_zero, key_of_tier_one,
      key_of_tier_two, key_of_tier_three]

/-- There are four tiers. -/
theorem tier_lt_four (e) : tier e < 4 := by simp only [tier]; split <;> omega

/-- Within a tier a dispatch keeps registration order (R245). -/
theorem matching_filter_tier (lis ev n) : (matching lis ev).filter (fun e => tier e == n) =
      (lis.filter fun e => listens e ev).filter (fun e => tier e == n) := by
  simp only [matching, List.flatMap_cons, List.flatMap_nil, List.filter_append, List.filter_filter,
      List.append_nil]
  by_cases hn : n < 4
  · have z (k) (hk : k ≠ n) : (lis.filter fun e => (tier e == n && (tier e == k && listens e ev))) = [] := by
      rw [List.filter_eq_nil_iff]; intro e _ h; simp at h; omega
    have y : (lis.filter fun e => (tier e == n && (tier e == n && listens e ev))) = (lis.filter fun e => (tier e == n && listens e ev)) := by
      congr 1; funext e; simp
    interval_cases n
    · rw [z 1, z 2, z 3, y] <;> simp
    · rw [z 0, z 2, z 3, y] <;> simp
    · rw [z 0, z 1, z 3, y] <;> simp
    · rw [z 0, z 1, z 2, y] <;> simp
  · have z (p : Listener → Bool) : (lis.filter fun e => (tier e == n && p e)) = [] := by
      rw [List.filter_eq_nil_iff]; intro e _ h; have := tier_lt_four e; simp at h; omega
    rw [z, z, z, z, z]; rfl

/-- The flags byte of `STATUS` by its bit values (R42). -/
theorem statusByte0_eq (s : State) :
    statusByte0 s = BitVec.ofNat 8 (s.run.toNat + 2 * s.stopReq.toNat + 4 * s.rxver.isSome.toNat + 16 * s.dfault.toNat) := by
  simp only [statusByte0]
  generalize s.rxver.isSome = x
  generalize s.run = y
  generalize s.stopReq = z
  generalize s.dfault = w
  revert x y z w; decide +kernel

/-- The poll loop does not touch the configuration. -/
theorem pollOutcome_cfg (r s) : (pollOutcome r s).cfg = s.cfg := by simp only [pollOutcome]; split <;> rfl

/-- The poll loop does not touch the agenda. -/
theorem pollOutcome_agenda (r s) :
    (pollOutcome r s).agenda = s.agenda := by simp only [pollOutcome]; split <;> rfl

end Sys2Proof.Machine
end

