-- ==== Sys2Proof/Laws/PerInstr.lean ====
section
/-! SUPPORT. Statements made instruction by instruction (LAWS.json). -/

/-- The operand packet of a well-formed operation has 1 to 270 bytes (30_encoding.md rule R90). -/
def Sys2Proof.Laws.EncodedSize.Statement (i : Sys2Proof.Instr) : Prop :=
  i.WellFormed → 1 ≤ (Sys2Proof.encode i).length ∧ (Sys2Proof.encode i).length ≤ 270

namespace Sys2Proof.Laws.EncodedSize

/-- A well-formed byte string has at most 255 bytes. -/
theorem countable_length {s : Bytes} (h : countable s = true) : s.length ≤ 255 := by simpa using h

theorem addrEnc (text : Bytes) :
    Statement (.addrEnc text) := by
  intro h
  have := countable_length h
  have e : (encode (.addrEnc text)).length = text.length + 2 := rfl
  rw [e]
  omega

theorem addrDec (bytes : Bytes) :
    Statement (.addrDec bytes) := by
  intro h
  have := countable_length h
  have e : (encode (.addrDec bytes)).length = bytes.length + 2 := rfl
  rw [e]
  omega

theorem addrUnp6 (bytes : Bytes) :
    Statement (.addrUnp6 bytes) := by
  intro h
  have := countable_length h
  have e : (encode (.addrUnp6 bytes)).length = bytes.length + 2 := rfl
  rw [e]
  omega

theorem timeDec (b : Byte) :
    Statement (.timeDec b) :=
  fun _ => ⟨Nat.le_of_ble_eq_true rfl, Nat.le_of_ble_eq_true rfl⟩

theorem timeEnc (dur : Dur) :
    Statement (.timeEnc dur) :=
  fun _ => ⟨Nat.le_of_ble_eq_true rfl, Nat.le_of_ble_eq_true rfl⟩

theorem timeNorm (hh : Byte) (mm : Byte) (ss : Byte) (ms : Half) :
    Statement (.timeNorm hh mm ss ms) :=
  fun _ => ⟨Nat.le_of_ble_eq_true rfl, Nat.le_of_ble_eq_true rfl⟩

theorem cmdOpc (cid : Half) :
    Statement (.cmdOpc cid) :=
  fun _ => ⟨Nat.le_of_ble_eq_true rfl, Nat.le_of_ble_eq_true rfl⟩

theorem cmdGrp (idx : Byte) (v : Bool) :
    Statement (.cmdGrp idx v) :=
  fun _ => ⟨Nat.le_of_ble_eq_true rfl, Nat.le_of_ble_eq_true rfl⟩

theorem cmdName (opcode : Byte) :
    Statement (.cmdName opcode) :=
  fun _ => ⟨Nat.le_of_ble_eq_true rfl, Nat.le_of_ble_eq_true rfl⟩

theorem frmOnce (text : Bytes) (cid : Half) (dur : Dur) :
    Statement (.frmOnce text cid dur) := by
  intro h
  have := countable_length h
  have e : (encode (.frmOnce text cid dur)).length = text.length + 8 := by simp [encode, counted, be16Bytes, be32Bytes]
  rw [e]
  omega

theorem frmRep (text : Bytes) (cid : Half) (dur : Dur) (iv : Half) :
    Statement (.frmRep text cid dur iv) := by
  intro h
  have := countable_length h
  have e : (encode (.frmRep text cid dur iv)).length = text.length + 10 := by simp [encode, counted, be16Bytes, be32Bytes]
  rw [e]
  omega

theorem txOnce (text : Bytes) (cid : Half) (dur : Dur) :
    Statement (.txOnce text cid dur) := by
  intro h
  have := countable_length h
  have e : (encode (.txOnce text cid dur)).length = text.length + 8 := by simp [encode, counted, be16Bytes, be32Bytes]
  rw [e]
  omega

theorem txRep (text : Bytes) (cid : Half) (dur : Dur) (iv : Half) :
    Statement (.txRep text cid dur iv) := by
  intro h
  have := countable_length h
  have e : (encode (.txRep text cid dur iv)).length = text.length + 10 := by simp [encode, counted, be16Bytes, be32Bytes]
  rw [e]
  omega

theorem txStop :
    Statement (.txStop) :=
  fun _ => ⟨Nat.le_of_ble_eq_true rfl, Nat.le_of_ble_eq_true rfl⟩

theorem txVer :
    Statement (.txVer) :=
  fun _ => ⟨Nat.le_of_ble_eq_true rfl, Nat.le_of_ble_eq_true rfl⟩

theorem ackCls (bytes : Bytes) :
    Statement (.ackCls bytes) := by
  intro h
  have := countable_length h
  have e : (encode (.ackCls bytes)).length = bytes.length + 2 := rfl
  rw [e]
  omega

theorem rxParse (bytes : Bytes) :
    Statement (.rxParse bytes) := by
  intro h
  have := countable_length h
  have e : (encode (.rxParse bytes)).length = bytes.length + 2 := rfl
  rw [e]
  omega

theorem rxPoll :
    Statement (.rxPoll) :=
  fun _ => ⟨Nat.le_of_ble_eq_true rfl, Nat.le_of_ble_eq_true rfl⟩

theorem rxVer :
    Statement (.rxVer) :=
  fun _ => ⟨Nat.le_of_ble_eq_true rfl, Nat.le_of_ble_eq_true rfl⟩

theorem dspAdd (cb : Half) (aen : Bool) (cen : Bool) (a : Bytes3) (cmd : Byte) :
    Statement (.dspAdd cb aen cen a cmd) :=
  fun _ => ⟨Nat.le_of_ble_eq_true rfl, Nat.le_of_ble_eq_true rfl⟩

theorem dspStart :
    Statement (.dspStart) :=
  fun _ => ⟨Nat.le_of_ble_eq_true rfl, Nat.le_of_ble_eq_true rfl⟩

theorem dspStop :
    Statement (.dspStop) :=
  fun _ => ⟨Nat.le_of_ble_eq_true rfl, Nat.le_of_ble_eq_true rfl⟩

theorem dspEmit (a : Bytes3) (opcode : Byte) (cid : Half) (tv : Bool) (dur : Dur) :
    Statement (.dspEmit a opcode cid tv dur) :=
  fun _ => ⟨Nat.le_of_ble_eq_true rfl, Nat.le_of_ble_eq_true rfl⟩

theorem sysStat :
    Statement (.sysStat) :=
  fun _ => ⟨Nat.le_of_ble_eq_true rfl, Nat.le_of_ble_eq_true rfl⟩

end Sys2Proof.Laws.EncodedSize
end

