-- ==== Sys2Proof/Laws/Time.lean ====
section
/-! SUPPORT. Lemmas of the time codec (41_time_codec.md). -/

namespace Sys2Proof.Machine

/-- The count nibble by division (R102). -/
theorem timeCount_eq (b : Byte) : timeCount b = b.toNat % 16 := by
  simp [timeCount]

/-- The exponent nibble by division (R102). -/
theorem timeExponent_eq (b : Byte) : timeExponent b = b.toNat / 16 := by
  have := b.isLt
  simp [timeExponent, Nat.shiftRight_eq_div_pow]; omega

/-- A decoded time byte in closed form (R151). -/
theorem timeDec_eq (b : Byte) : timeDec b = b.toNat % 16 * 2 ^ (b.toNat / 16) * 250 := by
  simp [timeDec, timeCount_eq, timeExponent_eq, Nat.shiftLeft_eq]

/-- A duration in a result packet, byte by byte (R95). -/
theorem durBytes_eq_bigEndian4 (n : Nat) : durBytes n = bigEndian4 n := by
  simp only [durBytes, be32Bytes_eq, bigEndian4, List.cons.injEq, and_true]
  refine ⟨?_, ?_, ?_, ?_⟩ <;> (apply BitVec.eq_of_toNat_eq; simp; try omega)

/-- The exponent the encoder chooses from 2000 ms on (R152). -/
theorem encExponent_spec (n : Nat) (hn : 2000 ≤ n) :
    1000 * 2 ^ (encExponent n + 1) ≤ n ∧ n < 1000 * 2 ^ (encExponent n + 2) := by
  have h1 : ¬ n < 2000 := by omega
  have hk : 1 ≤ Nat.log2 (n / 1000) := by
    rw [Nat.le_log2 (by omega)]; omega
  have e : encExponent n + 1 = Nat.log2 (n / 1000) := by simp [encExponent, h1]; omega
  have e2 : encExponent n + 2 = Nat.log2 (n / 1000) + 1 := by omega
  rw [e, e2]
  have a := Nat.log2_self_le (n := n / 1000) (by omega)
  have b := Nat.lt_log2_self (n := n / 1000)
  constructor <;> omega

/-- The exponent the encoder chooses below 2000 ms (R152). -/
theorem encExponent_of_lt (n : Nat) (hn : n < 2000) : encExponent n = 0 := by simp [encExponent, hn]

/-- Powers of two are ordered as their exponents. -/
theorem lt_of_two_pow_lt {a b : Nat} (h : 2 ^ a < 2 ^ b) : a < b := (Nat.pow_lt_pow_iff_right (by omega)).1 h

/-- Everything the time encoder answers in its range (R152). -/
theorem timeEnc_spec (d : Int) (hd : EncodableDur d) : ∃ b h l : _, timeEnc d = .ok b ∧ h ≤ 12 ∧ l ≤ 15 ∧
    b.toNat = h * 16 + l ∧
    (d < 2000 → h = 0) ∧ (2000 ≤ d → 1000 * 2 ^ (h + 1) ≤ d ∧ d < 1000 * 2 ^ (h + 2)) ∧
    (l : Int) = d / (250 * 2 ^ h) := by
  obtain ⟨h0, h1⟩ := hd
  obtain ⟨n, rfl⟩ := Int.eq_ofNat_of_zero_le h0
  have h1 : n ≤ 15360000 := by omega
  have hh : encExponent n ≤ 12 ∧ n / (250 * 2 ^ encExponent n) ≤ 15 := by
    rcases Nat.lt_or_ge n 2000 with hn | hn
    · simp [encExponent_of_lt n hn]; omega
    · obtain ⟨a, b⟩ := encExponent_spec n hn
      have : 2 ^ (encExponent n + 1) < 2 ^ 14 := by omega
      have := lt_of_two_pow_lt this
      refine ⟨by omega, ?_⟩
      have : n / (250 * 2 ^ encExponent n) < 16 := by
        rw [Nat.div_lt_iff_lt_mul (by positivity)]
        have : 2 ^ (encExponent n + 2) = 4 * 2 ^ encExponent n := by ring
        omega
      omega
  refine ⟨BitVec.ofNat 8 (encExponent n * 16 + n / (250 * 2 ^ encExponent n)), encExponent n,
      n / (250 * 2 ^ encExponent n), ?_, hh.1, hh.2, ?_, ?_, ?_, ?_⟩
  · have : ¬ ((n : Int) < 0 ∨ 15360000 < (n : Int)) := by omega
    simp only [timeEnc, this, if_false]
    simp [Nat.shiftLeft_eq]
  · simp; omega
  · intro h; exact encExponent_of_lt n (by omega)
  · intro h
    obtain ⟨a, b⟩ := encExponent_spec n (by omega)
    exact ⟨by exact_mod_cast a, by exact_mod_cast b⟩
  · push_cast; rfl

/-- The time encoder outside its range (R152). -/
theorem timeEnc_error (d : Int) (hd : ¬ EncodableDur d) : timeEnc d = .error .unsupportedDuration := by
  have : d < 0 ∨ 15360000 < d := by simp [EncodableDur] at hd; omega
  simp [timeEnc, this]

/-- The time byte R152 chooses is unique. -/
theorem timeByteOf_unique {d : Int} {b b' : Byte} (hd : EncodableDur d) (h : TimeByteOf d b) (h' :
    timeEnc d = .ok b') : b = b' := by
  obtain ⟨x, h2, l2, he, hh2, hl2, hb2, a2, c2, e2⟩ := timeEnc_spec d hd
  rw [he] at h'; simp at h'; subst h'
  obtain ⟨h1, l1, hh1, hl1, hb1, a1, c1, e1⟩ := h
  have : h1 = h2 := by
    by_cases hlt : d < 2000
    · rw [a1 hlt, a2 hlt]
    · obtain ⟨p1, q1⟩ := c1 (by omega)
      obtain ⟨p2, q2⟩ := c2 (by omega)
      have i1 : (2:Int)^(h1+1) < 2^(h2+2) := by omega
      have i2 : (2:Int)^(h2+1) < 2^(h1+2) := by omega
      have j1 := lt_of_two_pow_lt (a := h1+1) (b := h2+2) (by exact_mod_cast i1)
      have j2 := lt_of_two_pow_lt (a := h2+1) (b := h1+2) (by exact_mod_cast i2)
      omega
  subst this
  apply BitVec.eq_of_toNat_eq; omega

end Sys2Proof.Machine
end

