-- ==== Sys2Proof/Laws/Transmit.lean ====
section
/-! SUPPORT. Lemmas of the frame encoder and the acknowledgement classifier (43_transmit.md). -/

namespace Sys2Proof.Machine

/-- The byte a fault is reported with (R271). -/
def faultByte (f : FaultKind) : Byte := (faultCode f).setWidth 8

/-- A fault as a result packet. -/
theorem answer_error_eq (f s) : answer (.error f) s = answered s [faultByte f] := rfl

/-- A payload as a result packet. -/
theorem answer_ok_eq (p s) : answer (.ok p) s = answered s (0 :: p) := rfl

/-! ### Frames -/

/-- The frame body for operands that have one (R190, R191). -/
theorem frameBody_of_sendBody {c text cid d body} (h : SendBody c text cid d body) :
    frameBody c text cid d = .ok body := by
  obtain ⟨hv, hd, row, tb, hr, h1, h2, rfl⟩ := h
  obtain ⟨b, hb⟩ : ∃ b, timeEnc d = .ok b := by obtain ⟨b, _, _, he, _⟩ := timeEnc_spec d hd; exact ⟨b, he⟩
  have ht : timeByte row.cls b = tb := by
    simp only [timeByte]; split
    · rename_i hc; exact (timeByteOf_unique hd (h1 hc) hb).symm
    · rename_i hc; exact (h2 hc).symm
  simp only [frameBody, (addrEnc_ok_iff text _).2 ⟨hv, rfl⟩, opcodeFor, nameRow, hr, hb, bind, Except.bind,
      pure, Except.pure, ht]

/-- A frame body is what the rules say (R190, R191). -/
theorem sendBody_of_frameBody {c text cid d body} (h : frameBody c text cid d = .ok body) :
    SendBody c text cid d body := by
  simp only [frameBody, bind, Except.bind] at h
  split at h; · simp at h
  rename_i a ha
  split at h; · simp at h
  rename_i r hr
  split at h; · simp at h
  rename_i b hb
  simp [pure, Except.pure] at h
  obtain ⟨hv, rfl⟩ := (addrEnc_ok_iff text a).1 ha
  simp only [opcodeFor, nameRow] at hr
  split at hr
  · rename_i row hrow
    simp at hr; subst hr
    by_cases hd : EncodableDur d
    · obtain ⟨b', h', l', he, r⟩ := timeEnc_spec d hd
      rw [hb] at he; simp at he; subst he
      refine ⟨hv, hd, row, timeByte row.cls b, hrow, ?_, ?_, h.symm⟩
      · intro hc; simp only [timeByte, hc, if_true]; exact ⟨h', l', r⟩
      · intro hc; simp [timeByte, hc]
    · rw [timeEnc_error d hd] at hb; simp at hb
  · simp at hr

/-- The fault for operands that have no frame body (R191). -/
theorem frameBody_of_sendFault {c text cid d code} (h : SendFault c text cid d code) : ∃ f,
    frameBody c text cid d = .error f ∧ faultByte f = code := by
  simp only [frameBody, bind, Except.bind]
  rcases h with ⟨hv, rfl⟩ | ⟨hv, hc, rfl⟩ | ⟨hv, hc, hd, rfl⟩
  · rcases ha : addrEnc text with f | a
    · have := addrEnc_error ha; subst this; exact ⟨_, rfl, rfl⟩
    · exact absurd ((addrEnc_ok_iff text a).1 ha).1 hv
  · have : c.nameRom[cid.toNat]? = none := by simp [hc]
    simp only [(addrEnc_ok_iff text _).2 ⟨hv, rfl⟩, opcodeFor, nameRow, this]; exact ⟨_, rfl, rfl⟩
  · have : c.nameRom[cid.toNat]? = some c.nameRom[cid.toNat] := by simp [hc]
    simp only [(addrEnc_ok_iff text _).2 ⟨hv, rfl⟩, opcodeFor, nameRow, this,
        timeEnc_error d hd]; exact ⟨_, rfl, rfl⟩

/-- The send-once frame (R191). -/
theorem buildOnce_of_sendBody {c text cid d body} (h : SendBody c text cid d body) :
    buildOnce c text cid d = .ok (c.tagOnce.toList ++ body) := by
  simp [buildOnce, frameBody_of_sendBody h, bind, Except.bind, pure, Except.pure]

/-- The faults of the send-once frame (R191). -/
theorem buildOnce_of_sendFault {c text cid d code} (h : SendFault c text cid d code) : ∃ f,
    buildOnce c text cid d = .error f ∧ faultByte f = code := by
  obtain ⟨f, hf, hc⟩ := frameBody_of_sendFault h
  exact ⟨f, by simp [buildOnce, hf, bind, Except.bind], hc⟩

/-- The send-repeating frame (R192). -/
theorem buildRep_of_sendBody {c text cid d body iv} (h : SendBody c text cid d body) (h1 : 1 ≤ iv) (h2 :
    iv ≤ 255) :
   buildRep c text cid d iv = .ok (c.tagRep.toList ++ body ++ [BitVec.ofNat 8 iv]) := by
  have : ¬ (iv < 1 ∨ 255 < iv) := by omega
  simp only [buildRep, frameBody_of_sendBody h, bind, Except.bind, pure, Except.pure, intervalByte, this,
      if_false]

/-- A bad interval (R192). -/
theorem buildRep_of_bad_interval {c text cid d body iv} (h : SendBody c text cid d body) (h1 : iv < 1 ∨
    255 < iv) :
   buildRep c text cid d iv = .error .invalidInterval := by
  simp only [buildRep, frameBody_of_sendBody h, bind, Except.bind, intervalByte, h1, if_true]

/-- The faults of the send-repeating frame before its interval (R192). -/
theorem buildRep_of_sendFault {c text cid d code iv} (h : SendFault c text cid d code) : ∃ f,
    buildRep c text cid d iv = .error f ∧ faultByte f = code := by
  obtain ⟨f, hf, hc⟩ := frameBody_of_sendFault h
  exact ⟨f, by simp [buildRep, hf, bind, Except.bind], hc⟩

/-- A frame body has five bytes (R105). -/
theorem frameBody_length {c text cid d body} (h : frameBody c text cid d = .ok body) : body.length = 5 := by
  obtain ⟨_, _, _, _, _, _, _, rfl⟩ := sendBody_of_frameBody h; simp [Bytes3.toList]

/-- A send-once frame has eight bytes (R105). -/
theorem buildOnce_length {c text cid d f} (h : buildOnce c text cid d = .ok f) : f.length = 8 := by
  simp only [buildOnce, bind, Except.bind] at h
  split at h
  · simp at h
  · rename_i b hb; simp [pure, Except.pure] at h; subst h; simp [frameBody_length hb, Bytes3.toList]

/-- A send-repeating frame has nine bytes (R105). -/
theorem buildRep_length {c text cid d iv f} (h : buildRep c text cid d iv = .ok f) : f.length = 9 := by
  simp only [buildRep, bind, Except.bind] at h
  split at h
  · simp at h
  · rename_i b hb
    split at h
    · simp at h
    · simp [pure, Except.pure] at h; subst h; simp [frameBody_length hb, Bytes3.toList]

/-- The faults of a frame body (R191). -/
theorem frameBody_fault {c text cid d f} (h : frameBody c text cid d = .error f) : faultByte f ∈ ([0x01,
    0x03, 0x05] : List Byte) := by
  simp only [frameBody, bind, Except.bind] at h
  split at h
  · rename_i ha; simp at h; subst h; rw [addrEnc_error ha]; decide
  split at h
  · rename_i hr; simp at h; subst h
    simp only [opcodeFor] at hr; split at hr <;> simp at hr; subst hr; decide
  split at h
  · rename_i hr; simp at h; subst h
    simp only [timeEnc] at hr; split at hr <;> simp at hr; subst hr; decide
  simp [pure, Except.pure] at h

/-- The fault codes of the send-once frame (R191). -/
theorem buildOnce_fault {c text cid d f} (h : buildOnce c text cid d = .error f) : faultByte f ∈ ([0x01,
    0x03, 0x05] : List Byte) := by
  simp only [buildOnce, bind, Except.bind] at h
  split at h
  · rename_i e; simp at h; subst h; exact frameBody_fault e
  · simp [pure, Except.pure] at h

/-- The fault codes of the send-repeating frame (R192). -/
theorem buildRep_fault {c text cid d iv f} (h : buildRep c text cid d iv = .error f) :
    faultByte f ∈ ([0x01, 0x03, 0x05, 0x06] : List Byte) := by
  simp only [buildRep, bind, Except.bind] at h
  split at h
  · rename_i e; simp at h; subst h; have := frameBody_fault e; simp at this ⊢; tauto
  split at h
  · rename_i e; simp at h; subst h
    simp only [intervalByte] at e; split at e <;> simp at e; subst e; decide
  · simp [pure, Except.pure] at h

/-! ### Acknowledgements -/

/-- Classifying an acknowledgement (R200). -/
theorem ackClassify_read {c a st tr} (h : AckRead c a st tr) :
    ackClassify c a = (ackStatus c st).map fun cls => (cls, tr) := by
  have ha : a = some [c.ackHdr.b0, c.ackHdr.b1, c.ackHdr.b2, st, tr] := h
  subst ha
  simp only [ackClassify, if_true]

/-- Classifying what is no acknowledgement (R200). -/
theorem ackClassify_no_read {c a} (ha : ∀ st tr, ¬ AckRead c a st tr) :
    ackClassify c a = .error .invalidResponse := by
      simp only [ackClassify]
      split
      · rename_i h0 h1 h2 st tr
        split
        · rename_i hh
          exfalso; apply ha st tr; simp [AckRead, ← hh, Bytes3.toList]
        · rfl
      · rfl

/-- The six recognised statuses, which R7 (a) makes different (R200). -/
theorem ackStatus_known {c : Cfg} (hw : c.WellFormed) : ackStatus c c.stOk = .ok .ok ∧
    ackStatus c c.stFirmware = .ok .firmware ∧
    ackStatus c c.stStopOk = .ok .stopOk ∧ ackStatus c c.stStopNotSent = .ok .stopNotSent ∧
    ackStatus c c.stUnknown = .error .unknownDataframe ∧
        ackStatus c c.stMismatch = .error .mismatchedDataframe := by
  have hn := hw.statusesDiffer
  simp only [List.nodup_cons, List.mem_cons, List.not_mem_nil, or_false, not_or] at hn
  obtain ⟨⟨a1,a2,a3,a4,a5⟩,⟨b2,b3,b4,b5⟩,⟨c3,c4,c5⟩,⟨d4,d5⟩,e5,-⟩ := hn
  simp [ackStatus, Ne.symm a1, Ne.symm a2, Ne.symm a3, Ne.symm a4, Ne.symm a5, Ne.symm b2, Ne.symm b3,
      Ne.symm b4, Ne.symm b5, Ne.symm c3, Ne.symm c4, Ne.symm c5, Ne.symm d4, Ne.symm d5, Ne.symm e5]

/-- Everything the classifier answers (R200). -/
theorem ackPacket_spec {c a q} (hw : c.WellFormed) (h : AckPacket c a q) :
   resultPacket (ackClassify c a >>= ackPayload) = q := by
  rcases h with ⟨st, tr, ha, hm⟩ | ⟨st, tr, ha, hm, rfl⟩ | ⟨ha, rfl⟩
  · rw [ackClassify_read ha]
    obtain ⟨h1,h2,h3,h4,h5,h6⟩ := ackStatus_known hw
    simp [statusTable] at hm
    rcases hm with ⟨rfl, rfl⟩ | ⟨rfl, rfl⟩ | ⟨rfl, rfl⟩ | ⟨rfl, rfl⟩ | ⟨rfl, rfl⟩ | ⟨rfl, rfl⟩ <;>
    simp only [h1,h2,h3,h4,h5,h6] <;> rfl
  · rw [ackClassify_read ha]
    simp [statusTable] at hm
    obtain ⟨h1,h2,h3,h4,h5,h6⟩ := hm
    have : ackStatus c st = .error .invalidResponse := by
      simp [ackStatus, Ne.symm h1, Ne.symm h2, Ne.symm h3, Ne.symm h4, Ne.symm h5, Ne.symm h6]
    rw [this]; rfl
  · rw [ackClassify_no_read ha]; rfl

/-- Every read has a classification (R200, R310). -/
theorem ackPacket_total (c a) : ∃ q, AckPacket c a q := by
  by_cases h : ∃ st tr, AckRead c a st tr
  · obtain ⟨st, tr, h⟩ := h
    by_cases hk : ∃ r ∈ statusTable c tr, r.1 = st
    · obtain ⟨⟨_, q⟩, hr, rfl⟩ := hk
      exact ⟨q, .inl ⟨_, tr, h, hr⟩⟩
    · exact ⟨_, .inr (.inl ⟨st, tr, h, fun r hr he => hk ⟨r, hr, he⟩, rfl⟩)⟩
  · exact ⟨_, .inr (.inr ⟨by simpa using h, rfl⟩)⟩

/-- The fault codes of the classifier (R200). -/
theorem classify_fault {c a f} (h : ackClassify c a = .error f) : faultByte f ∈ ([0x07, 0x08, 0x09] :
    List Byte) := by
  simp only [ackClassify] at h
  split at h
  · split at h
    · simp only [ackStatus] at h
      split_ifs at h <;> simp [Except.map] at h <;> subst h <;> decide
    · simp at h; subst h; decide
  · simp at h; subst h; decide

/-- No classification is a codec fault (R200, R201). -/
theorem classified_is_no_codec_fault (c a) : resultPacket (ackClassify c a >>= ackPayload) ∉ ([[0x01],
    [0x03], [0x05], [0x06]] : List Bytes) := by
  simp only [ackClassify]
  split
  · split
    · simp only [ackStatus]
      split_ifs <;> simp [Except.map, bind, Except.bind, ackPayload, resultPacket, faultCode]
    · simp [bind, Except.bind, resultPacket, faultCode]
  · simp [bind, Except.bind, resultPacket, faultCode]

/-- The fault of a version answer (R198). -/
theorem versionPayload_fault {c r f} (h : versionPayload c r = .error f) : faultByte f ∈ ([0x07, 0x08,
    0x09] : List Byte) := by
  simp only [versionPayload] at h
  split at h
  · split at h <;> simp at h; subst h; decide
  · simp at h; subst h; decide

/-- The fault codes of an exchange (R199). -/
theorem exchange_fault {s} {p : AckClass × Byte → Result Bytes} {f} (hp : ∀ r f, p r = .error f →
    faultByte f ∈ ([0x07, 0x08, 0x09] : List Byte)) (h : (exchangeResult s >>= p) = .error f) :
    faultByte f ∈ ([0x07, 0x08, 0x09] : List Byte) := by
  rcases he : exchangeResult s with g | r
  · rw [he] at h; simp [bind, Except.bind] at h; subst h; exact classify_fault he
  · rw [he] at h; exact hp r f h

/-! ### Exchanges -/

/-- An exchange and its result, as one effect (R199). -/
theorem afterExchange_answer (f s r) : answer r (afterExchange f s) = exchanged s f (resultPacket r) := by
  simp [answer, afterExchange, afterTxRead, txWrite, emit, exchanged, txAnswer]

/-- A send without a frame (R201). -/
theorem transmit_err {f p s} : transmit (.error f) p s = answered s [faultByte f] := rfl

/-- A send with a frame (R199). -/
theorem transmit_ok {f p s} :
    transmit (.ok f) p s = exchanged s f (resultPacket (ackClassify s.cfg (txAnswer s) >>= p)) := by
  simp only [transmit, afterExchange_answer, exchangeResult]

/-- A send with a frame and its acknowledgement (R195 to R197). -/
theorem transmit_ack {s f q} (hw : s.cfg.WellFormed) (h : AckPacket s.cfg (txAnswer s) q) :
    transmit (.ok f) ackPayload s = exchanged s f q := by
  rw [transmit_ok, ackPacket_spec hw h]

/-- The two shapes of a send (R201). -/
theorem transmit_cases (frame : Result Bytes) (s) : 
   (∃ f, frame = .error f ∧ transmit frame ackPayload s = answered s [faultByte f]) ∨
   (∃ f, frame = .ok f ∧
       transmit frame ackPayload s = exchanged s f (resultPacket (ackClassify s.cfg (txAnswer s) >>= ackPayload))) := by
  rcases frame with f | f
  · exact .inl ⟨f, rfl, rfl⟩
  · exact .inr ⟨f, rfl, transmit_ok⟩

/-- A send changes the history and the transmit adapter's answers only. -/
theorem transmit_same_state (frame p s) :
    transmit frame p s = { s with
      trace := (transmit frame p s).trace
      txAnswers := (transmit frame p s).txAnswers
      txReads := (transmit frame p s).txReads } := by
  rcases frame with f | f <;> rfl

/-- A send does not write the version cell. -/
theorem transmit_rxver (frame p s) : (transmit frame p s).rxver = s.rxver := by rcases frame with f | f <;> rfl

/-- A send does not touch the listener table. -/
theorem transmit_lis (frame p s) : (transmit frame p s).lis = s.lis := by rcases frame with f | f <;> rfl

/-- A send does not read the history (R38). -/
theorem transmit_trace_ghost (frame p) (s : State) : ∃ (es : List PortEvent) (t : State), ∀ h :
    List PortEvent, transmit frame p { s with trace := h } = { t with trace := h ++ es } := by
  rcases frame with f | f
  · exact ⟨_, s, fun h => rfl⟩
  · refine ⟨[.txw f, .txr (txAnswer s), .res (resultPacket (exchangeResult s >>= p))], afterExchange f s,
        fun h => ?_⟩
    simp [transmit, answer, afterExchange, afterTxRead, txWrite, emit]; exact ⟨rfl, rfl⟩

end Sys2Proof.Machine
end

