-- ==== Sys2Proof/Laws/Step.lean ====
section
/-! SUPPORT. What one operation and one step can do, said once; what they do to the invariant. -/

namespace Sys2Proof.Machine

/-! ### Operations -/

/-- Every operation answers a next state (R310). -/
theorem exec_next (i s) : ∃ t, exec i s = .next t := by
  cases i <;> exact ⟨_, rfl⟩

/-- The state of R30 is unchanged, the ghost history apart. -/
def SameState (s t : State) : Prop :=
  t.run = s.run ∧ t.stopReq = s.stopReq ∧ t.dfault = s.dfault ∧ t.rxver = s.rxver ∧ t.lis = s.lis

/-- What every operation does to the history, the configuration and the agenda, and that a fault writes no state
(R94, R271, R284, R287). -/
structure ExecEffect (i : Instr) (s t : State) (es : List PortEvent) (r : Result Bytes) : Prop where
  trace : t.trace = s.trace ++ es ++ [.res (resultPacket r)]
  noRes : ∀ q, PortEvent.res q ∉ es
  legal : ∀ e ∈ es, eventLegal e = true
  pairs : paired es = true
  fault : ∀ f, r = .error f → SameState s t ∧ faultByte f ∈ faultCodesOf i
  cfg : t.cfg = s.cfg
  agenda : t.agenda = s.agenda

/-- Two histories with one acknowledgement per command, one after the other. -/
theorem paired_append {a b : List PortEvent} (ha : paired a = true) (hb : paired b = true) :
    paired (a ++ b) = true := by
  induction a using paired.induct <;> simp_all [paired]

/-- An answer is within its request (R68). -/
theorem clip_length_le (n : Nat) (a : Option Bytes) (l : Bytes) (h : clip n a = some l) : l.length ≤ n := by
  simp only [clip, Option.map_eq_some_iff] at h
  obtain ⟨x, -, rfl⟩ := h; simp

/-- An answer of the transmit adapter is within its request (R68). -/
theorem txAnswer_legal (s) : eventLegal (.txr (txAnswer s)) = true := by
  rcases h : txAnswer s with _ | l
  · rfl
  · simpa [eventLegal] using clip_length_le _ _ _ h

/-- An answer of the receive adapter is within its request (R68). -/
theorem rxAnswer_legal (s) : eventLegal (.rxr (rxAnswer s)) = true := by
  rcases h : rxAnswer s with _ | l
  · rfl
  · simpa [eventLegal] using clip_length_le _ _ _ h

/-- An operation whose only effect is its result. -/
theorem execEffect_answer {i s} {r : Result Bytes} (h : ∀ f, r = .error f → faultByte f ∈ faultCodesOf i) :
    ExecEffect i s (answer r s) [] r :=
  ⟨by simp [answer, emit], by simp, by simp, rfl, fun f hf => ⟨⟨rfl, rfl, rfl, rfl, rfl⟩, h f hf⟩, rfl, rfl⟩

/-- A send. -/
theorem execEffect_transmit {i s} {frame : Result Bytes} {p} (hl : ∀ f, frame = .ok f → f.length = 3 ∨
    f.length = 8 ∨ f.length = 9)
    (he : ∀ f, frame = .error f → faultByte f ∈ faultCodesOf i)
    (hr : ∀ f, (exchangeResult s >>= p) = .error f → faultByte f ∈ faultCodesOf i) :
    ∃ es r, ExecEffect i s (transmit frame p s) es r := by
  rcases frame with f | f
  · exact ⟨[], _, execEffect_answer (fun g hg => by cases hg; exact he f rfl)⟩
  · refine ⟨[.txw f, .txr (txAnswer s)], exchangeResult s >>= p, ?_, by simp, ?_, rfl,
      fun g hg => ⟨⟨rfl, rfl, rfl, rfl, rfl⟩, hr g hg⟩, rfl, rfl⟩
    · simp [transmit, answer, afterExchange, afterTxRead, txWrite, emit]; rfl
    simp only [List.forall_mem_cons, txAnswer_legal, true_and]
    refine ⟨?_, by simp⟩
    rcases hl f rfl with h | h | h <;> simp [eventLegal, h]

/-- A parse for the host. -/
theorem execEffect_receive {i s u a es} (hi : faultCodesOf i = [0x07, 0x01, 0x04]) (htr :
    u.trace = s.trace ++ es) (hc : SameState s u)
   (hcfg : u.cfg = s.cfg) (hag : u.agenda = s.agenda)
   (h1 : ∀ q, PortEvent.res q ∉ es) (h2 : ∀ e ∈ es, eventLegal e = true) (h3 : paired es = true) :
   ∃ r, ExecEffect i s (receive a u) es r := by
  simp only [receive]
  split
  · exact ⟨_, by simp [answer, emit, setRxver, htr]; rfl, h1, h2, h3, by simp, hcfg, hag⟩
  · rename_i f hf
    refine ⟨.error f, by simp [raise, answer, emit, htr], h1, h2, h3, ?_, hcfg, hag⟩
    intro g hg; cases hg
    refine ⟨hc, ?_⟩
    rw [hi]; rcases parseEvent_fault hf with rfl | rfl | rfl <;> decide

/-- A fault passes through the layout of the payload. -/
theorem error_of_map_error {α β} {r : Result α} {g : α → β} {f} (h : r.map g = .error f) : r = .error f := by
  cases r <;> simp_all [Except.map]

/-- Said once for all 24 operations. -/
theorem exec_effect (i s t) (h : exec i s = .next t) : ∃ es r, ExecEffect i s t es r := by
  cases i <;> replace h := Host.Outcome.next.inj h <;> subst h
  case addrEnc b => exact ⟨_, _,
      execEffect_answer fun f hf => by rw [addrEnc_error (error_of_map_error hf)]; (simp only [faultCodesOf]; decide)⟩
  case addrDec b =>
    refine ⟨_, _, execEffect_answer fun f hf => ?_⟩
    simp only [addrDec] at hf; split at hf <;> simp at hf; subst hf; (simp only [faultCodesOf]; decide)
  case addrUnp6 b =>
    refine ⟨_, _, execEffect_answer fun f hf => ?_⟩
    rcases addrUnp6_fault (error_of_map_error hf) with rfl | rfl <;> (simp only [faultCodesOf]; decide)
  case timeDec b => exact ⟨_, _, execEffect_answer fun f hf => by simp at hf⟩
  case timeEnc b =>
    refine ⟨_, _, execEffect_answer fun f hf => ?_⟩
    replace hf := error_of_map_error hf
    simp only [timeEnc] at hf; split at hf <;> simp at hf; subst hf; (simp only [faultCodesOf]; decide)
  case timeNorm =>
    refine ⟨_, _, execEffect_answer fun f hf => ?_⟩
    replace hf := error_of_map_error hf
    simp only [timeNorm] at hf; split at hf <;> simp at hf; subst hf; (simp only [faultCodesOf]; decide)
  case cmdOpc =>
    refine ⟨_, _, execEffect_answer fun f hf => ?_⟩
    replace hf := error_of_map_error hf
    simp only [opcodeFor] at hf; split at hf <;> simp at hf; subst hf; (simp only [faultCodesOf]; decide)
  case cmdGrp =>
    refine ⟨_, _, execEffect_answer fun f hf => ?_⟩
    replace hf := error_of_map_error hf
    simp only [lookupGroup] at hf; split at hf <;> simp at hf; subst hf; (simp only [faultCodesOf]; decide)
  case cmdName =>
    refine ⟨_, _, execEffect_answer fun f hf => ?_⟩
    replace hf := error_of_map_error hf
    simp only [nameFor] at hf; split at hf <;> simp at hf; subst hf; (simp only [faultCodesOf]; decide)
  case frmOnce => exact ⟨_, _, execEffect_answer fun f hf => buildOnce_fault hf⟩
  case frmRep => exact ⟨_, _, execEffect_answer fun f hf => buildRep_fault hf⟩
  case txOnce =>
    refine execEffect_transmit (fun f hf => by have := buildOnce_length hf; omega) (fun f hf => ?_) (fun f hf => ?_)
    · have := buildOnce_fault hf; simp [faultCodesOf] at this ⊢; tauto
    · have := exchange_fault (by simp [ackPayload]) hf; simp [faultCodesOf] at this ⊢; tauto
  case txRep =>
    refine execEffect_transmit (fun f hf => by have := buildRep_length hf; omega) (fun f hf => ?_) (fun f hf => ?_)
    · have := buildRep_fault hf; simp [faultCodesOf] at this ⊢; tauto
    · have := exchange_fault (by simp [ackPayload]) hf; simp [faultCodesOf] at this ⊢; tauto
  case txStop =>
    exact execEffect_transmit (fun f hf => by cases hf; exact .inl rfl) (by simp) (fun f hf => exchange_fault (by simp [ackPayload]) hf)
  case txVer =>
    exact execEffect_transmit (fun f hf => by cases hf; exact .inl rfl) (by simp) (fun f hf => exchange_fault (fun _ _ => versionPayload_fault) hf)
  case ackCls b =>
    refine ⟨_, _, execEffect_answer fun f hf => ?_⟩
    rcases ha : ackClassify s.cfg (some b) with g | r
    · rw [ha] at hf; simp [bind, Except.bind] at hf; subst hf; exact classify_fault ha
    · rw [ha] at hf; simp [bind, Except.bind, ackPayload] at hf
  case rxParse b => exact ⟨[], execEffect_receive rfl (by simp) ⟨rfl, rfl, rfl, rfl,
      rfl⟩ rfl rfl (by simp) (by simp) rfl⟩
  case rxPoll => exact ⟨[.rxr (rxAnswer s)], execEffect_receive rfl rfl ⟨rfl, rfl, rfl, rfl,
      rfl⟩ rfl rfl (by simp) (by simp [rxAnswer_legal]) rfl⟩
  case rxVer =>
    refine ⟨_, _, execEffect_answer fun f hf => ?_⟩
    split at hf <;> simp at hf; subst hf; (simp only [faultCodesOf]; decide)
  case dspAdd =>
    split
    · exact ⟨_, _, execEffect_answer fun f hf => by cases hf; (simp only [faultCodesOf]; decide)⟩
    · exact ⟨[], _, by simp [answer, emit, appendListener]; rfl, by simp, by simp, rfl, by simp, rfl, rfl⟩
  case dspStart =>
    split
    · exact ⟨_, _, execEffect_answer fun f hf => by cases hf; (simp only [faultCodesOf]; decide)⟩
    · exact ⟨[], _, by simp [answer, emit, startRunning]; rfl, by simp, by simp, rfl, by simp, rfl, rfl⟩
  case dspStop =>
    exact ⟨[], _, by simp [answer, emit, requestStop]; rfl, by simp, by simp, rfl, by simp, rfl, rfl⟩
  case dspEmit =>
    refine ⟨(matching s.lis _).map fun e => .cb e.cb _, _, by simp [answer, emit, dispatch]; exact ⟨rfl,
        rfl⟩, by simp, by simp [eventLegal], ?_, by simp, rfl, rfl⟩
    generalize matching s.lis _ = l
    induction l <;> simp_all [paired]
  case sysStat => exact ⟨_, _, execEffect_answer fun f hf => by simp at hf⟩

/-- A one-byte result packet with a code is a fault. -/
theorem resultPacket_singleton {r : Result Bytes} {code} (h : resultPacket r = [code]) (hc : code ≠ 0) :
    ∃ f, r = .error f ∧ faultByte f = code := by
  rcases r with f | p
  · exact ⟨f, rfl, by simpa [resultPacket, faultByte] using h⟩
  · simp [resultPacket] at h; exact absurd h.1.symm hc

/-- A fault code an operation can answer with is one that is produced (R271). -/
theorem resultLegal_of_faultCode (i : Instr) : ∀ c ∈ faultCodesOf i, resultLegal [c] = true := by
  cases i <;> (simp only [faultCodesOf]; decide)

/-- The result packet of an operation is legal (R94). -/
theorem resultLegal_of_execEffect {i s t es r} (e : ExecEffect i s t es r) :
    resultLegal (resultPacket r) = true := by
  rcases hr : r with f | p
  · exact resultLegal_of_faultCode i _ (e.fault f hr).2
  · rfl

/-- The listener table after an operation (R64). -/
theorem exec_lis {i s t} (h : exec i s = .next t) : t.lis = s.lis ∨ (tableFull s = false ∧ ∃ e,
    t.lis = s.lis ++ [e]) := by
  cases i <;> replace h := Host.Outcome.next.inj h <;> subst h
  case dspAdd =>
    split
    · exact .inl rfl
    · rename_i ht; exact .inr ⟨by simpa using ht, _, rfl⟩
  case rxParse b => left; simp only [receive]; split <;> rfl
  case rxPoll => left; simp only [receive]; split <;> rfl
  case dspStart => left; split <;> rfl
  all_goals first | exact .inl rfl | exact .inl (transmit_lis _ _ _)

/-- The run flags after an operation (R251). -/
theorem exec_flags {i s t} (h : exec i s = .next t) :
    runFlags t = runFlags s ∨ (i = .dspStart ∧ s.run = false ∧ runFlags t = (true, false, 0)) ∨
      (i = .dspStop ∧ s.run = true ∧ runFlags t = (true, true, s.dfault)) := by
  cases i <;> replace h := Host.Outcome.next.inj h <;> subst h
  case dspStart =>
    split
    · exact .inl rfl
    · rename_i hr; exact .inr (.inl ⟨rfl, by simpa using hr, rfl⟩)
  case dspStop =>
    rcases hr : s.run
    · left; simp [runFlags, answer, emit, requestStop, hr]
    · right; right; exact ⟨rfl, rfl, by simp [runFlags, answer, emit, requestStop, hr]⟩
  case dspAdd => left; split <;> rfl
  case rxParse b => left; simp only [receive]; split <;> rfl
  case rxPoll => left; simp only [receive]; split <;> rfl
  case txOnce => left; rw [transmit_same_state]; rfl
  case txRep => left; rw [transmit_same_state]; rfl
  all_goals exact .inl rfl

/-- The frame an operation writes, if any: a function of the configuration and the operands. -/
def frameOf (c : Cfg) (i : Instr) : Option Bytes :=
  match i with
  | .txOnce text cid dur => (buildOnce c text cid dur.toInt).toOption
  | .txRep text cid dur iv => (buildRep c text cid dur.toInt iv.toNat).toOption
  | .txStop => some c.tagStop.toList
  | .txVer => some c.tagVer.toList
  | _ => none

/-- A send writes the frame that was built. -/
theorem transmit_writes_frame (frame p s f) (h :
    PortEvent.txw f ∈ (transmit frame p s).trace.drop s.trace.length) : frame.toOption = some f := by
  rcases frame with e | g
  · simp [transmit_err, answered] at h
  · simp [transmit_ok, exchanged] at h; simp [h, Except.toOption]

/-- An operation writes no other frame than this one (R202). -/
theorem exec_frame_written {i s t f} (h : exec i s = .next t) (hf :
    PortEvent.txw f ∈ t.trace.drop s.trace.length) : frameOf s.cfg i = some f := by
  cases i <;> simp only [exec] at h
  case txOnce => simp only [execTxOnce,
      Host.Outcome.next.injEq] at h; subst h; exact transmit_writes_frame _ _ _ _ hf
  case txRep => simp only [execTxRep,
      Host.Outcome.next.injEq] at h; subst h; exact transmit_writes_frame _ _ _ _ hf
  case txStop => simp only [execTxStop,
      Host.Outcome.next.injEq] at h; subst h; exact transmit_writes_frame _ _ _ _ hf
  case txVer => simp only [execTxVer,
      Host.Outcome.next.injEq] at h; subst h; exact transmit_writes_frame _ _ _ _ hf
  case dspEmit => 
    simp only [execDspEmit, Host.Outcome.next.injEq] at h; subst h
    simp [answer, emit, dispatch] at hf
  case rxPoll =>
    simp only [execRxPoll, Host.Outcome.next.injEq] at h; subst h
    obtain ⟨q, hq⟩ := receive_trace_append (rxAnswer s) (afterRxRead s)
    rw [hq] at hf; simp [afterRxRead, emit] at hf
  case rxParse b =>
    simp only [execRxParse, Host.Outcome.next.injEq] at h; subst h
    obtain ⟨q, hq⟩ := receive_trace_append (some b) s
    rw [hq] at hf; simp at hf
  case dspAdd =>
    simp only [execDspAdd, Host.Outcome.next.injEq] at h; subst h
    split at hf <;> simp [raise, answer, emit, appendListener] at hf
  case dspStart =>
    simp only [execDspStart, Host.Outcome.next.injEq] at h; subst h
    split at hf <;> simp [raise, answer, emit, startRunning] at hf
  case dspStop =>
    simp only [execDspStop, Host.Outcome.next.injEq] at h; subst h
    simp [answer, emit, requestStop] at hf
  all_goals
    (have := Host.Outcome.next.inj h; subst this; simp [answer, emit] at hf)

/-! ### Steps -/

/-- Everything a step can be (R71, R72, R93, R300). -/
theorem step_cases {s t} (h : step s = .next t) : (s.agenda = [] ∧ t = s) ∨ ∃ turn rest,
    s.agenda = turn :: rest ∧ 
   ((∃ p i, turn = .host p ∧ decode p = .ok i ∧ exec i { s with agenda := rest } = .next t) ∨
    (∃ p e, turn = .host p ∧ decode p = .error e ∧ t = raise .illegalOperation { s with agenda := rest }) ∨
    (turn = .dispatcher ∧ t = dispatcherTurn { s with agenda := rest }) ∨ (turn = .reset ∧
        t = resetEvent { s with agenda := rest })) := by
  simp only [step] at h
  split at h
  · rename_i ha; exact .inl ⟨ha, (Host.Outcome.next.inj h).symm⟩
  · rename_i turn rest ha
    refine .inr ⟨turn, rest, ha, ?_⟩
    cases turn with
    | host p =>
      simp only [takeTurn, hostTurn] at h
      rcases hd : decode p with e | i
      · rw [hd] at h; exact .inr (.inl ⟨p, e, rfl, hd, (Host.Outcome.next.inj h).symm⟩)
      · rw [hd] at h; exact .inl ⟨p, i, rfl, hd, h⟩
    | dispatcher => exact .inr (.inr (.inl ⟨rfl, (Host.Outcome.next.inj h).symm⟩))
    | reset => exact .inr (.inr (.inr ⟨rfl, (Host.Outcome.next.inj h).symm⟩))

/-- A dispatcher turn does not touch the agenda. -/
theorem dispatcherTurn_agenda (s) : (dispatcherTurn s).agenda = s.agenda := by
  simp only [dispatcherTurn, dispatcherStep]; split
  · split
    · rfl
    · rw [pollOutcome_agenda]; rfl
  · rfl

/-- The state after a step that answers one. -/
theorem afterStep_eq {s t} (h : step s = .next t) : afterStep s = t := by simp [afterStep, h]

/-- A run, its last step apart. -/
theorem afterSteps_succ (n s) : afterSteps (n+1) s = afterStep (afterSteps n s) := by
  induction n generalizing s with
  | zero => rfl
  | succ k ih => rw [afterSteps, ih]; rfl

/-! ### The invariant -/

/-- The invariant does not look at the agenda. -/
theorem blockInv_withAgenda {s ag} (hi : BlockInv s) : BlockInv { s with agenda := ag } := by
  obtain ⟨a1, a2, a3, a4, a5, a6⟩ := hi
  exact ⟨a1, a2, a3, a4, a5, a6⟩

/-- A rejected packet keeps the invariant. -/
theorem blockInv_raise {s} (hi : BlockInv s) : BlockInv (raise .illegalOperation s) := by
  obtain ⟨a1, a2, a3, a4, a5, a6⟩ := hi
  refine ⟨a1, a2, a3, a4, ?_, paired_append a6 rfl⟩
  intro e he
  rcases List.mem_append.1 he with he | he
  · exact a5 e he
  · simp at he; subst he; rfl

/-- Callbacks are legal port events. -/
theorem callbacks_legal (lis ev) : ∀ e ∈ (matching lis ev).map (fun e => PortEvent.cb e.cb ev),
    eventLegal e = true := by simp [eventLegal]

/-- Callbacks do not come between a frame and its acknowledgement. -/
theorem callbacks_paired (l : List Listener) (ev) : paired (l.map (fun e => PortEvent.cb e.cb ev)) = true := by
  induction l <;> simp_all [paired]

/-- A read of the receive adapter keeps the invariant. -/
theorem blockInv_afterRxRead {s} (hi : BlockInv s) : BlockInv (afterRxRead s) := by
  obtain ⟨a1, a2, a3, a4, a5, a6⟩ := hi
  refine ⟨a1, a2, a3, a4, ?_, paired_append a6 rfl⟩
  intro e he
  rcases List.mem_append.1 he with he | he
  · exact a5 e he
  · simp at he; subst he; exact rxAnswer_legal s

/-- A dispatch keeps the invariant. -/
theorem blockInv_dispatch {s ev} (hi : BlockInv s) : BlockInv (dispatch ev s) := by
  obtain ⟨a1, a2, a3, a4, a5, a6⟩ := hi
  refine ⟨a1, a2, a3, a4, ?_, paired_append a6 (callbacks_paired _ _)⟩
  intro e he
  rcases List.mem_append.1 he with he | he
  · exact a5 e he
  · exact callbacks_legal _ _ e he

/-- Every operation keeps the invariant. -/
theorem exec_inv {i s t} (hi : BlockInv s) (h : exec i s = .next t) : BlockInv t := by
  obtain ⟨es, r, e⟩ := exec_effect i s t h
  have hf := exec_flags h
  obtain ⟨a1, a2, a3, a4, a5, a6⟩ := hi
  refine ⟨?_, ?_, ?_, ?_, ?_, ?_⟩
  · simp only [runFlags, Prod.mk.injEq] at hf; rcases hf with ⟨x, y, z⟩ | ⟨_, _, x, y, z⟩ | ⟨_, _, x, y,
        z⟩ <;> simp_all
  · simp only [runFlags, Prod.mk.injEq] at hf; rcases hf with ⟨x, y, z⟩ | ⟨_, _, x, y, z⟩ | ⟨_, _, x, y,
        z⟩ <;> simp_all
  · simp only [runFlags, Prod.mk.injEq] at hf; rcases hf with ⟨x, y, z⟩ | ⟨_, _, x, y, z⟩ | ⟨_, _, x, y,
        z⟩ <;> simp_all
  · rw [e.cfg]
    rcases exec_lis h with hl | ⟨ht, x, hl⟩
    · rw [hl]; exact a4
    · intro n hn
      have : ¬ n ≤ s.lis.length := fun hle => by
        have := (tableFull_iff s).2 ⟨n, by simpa using hn, hle⟩; simp [ht] at this
      rw [hl]; simp; omega
  · rw [e.trace]
    intro x hx
    simp only [List.mem_append, List.mem_singleton] at hx
    rcases hx with (hx | hx) | rfl
    · exact a5 x hx
    · exact e.legal x hx
    · exact resultLegal_of_execEffect e
  · rw [e.trace]
    exact paired_append (paired_append a6 e.pairs) rfl

/-- A dispatcher turn keeps the invariant. -/
theorem dispatcherTurn_inv {s} (hi : BlockInv s) : BlockInv (dispatcherTurn s) := by
  simp only [dispatcherTurn]
  split
  · rename_i hr
    simp only [dispatcherStep]
    split
    · obtain ⟨a1, a2, a3, a4, a5, a6⟩ := hi
      exact ⟨by simp [observeStop], by simp [observeStop], a3, a4, a5, a6⟩
    · have h2 := blockInv_afterRxRead hi
      simp only [pollOutcome]
      split
      · apply blockInv_dispatch
        obtain ⟨a1, a2, a3, a4, a5, a6⟩ := h2
        exact ⟨a1, a2, a3, a4, a5, a6⟩
      · exact h2
      · rename_i f hne hf
        obtain ⟨a1, a2, a3, a4, a5, a6⟩ := h2
        refine ⟨by simp [latchFault], by simp [latchFault], ?_, a4, a5, a6⟩
        rcases parseEvent_fault hf with rfl | rfl | rfl
        · exact absurd rfl hne
        · exact .inr (.inl rfl)
        · exact .inr (.inr rfl)
  · exact hi

end Sys2Proof.Machine
end

