-- ==== Sys2Proof/Tests/Slice0.lean ====
section
/-! SUPPORT. Tests. Expected values are those of spec/95_test_vectors.md (the vector is named in the comment) or are
written out from the encoding rules; `refCfg` is D31's configuration. Then, for each statement with hypotheses, a
witness that meets them. -/

-- each `decide +kernel` waits on the kernel: elaborated one after another, they need no thread each
set_option Elab.async false

namespace Sys2Proof.Tests

open Sys2Proof.Machine

/-! ### Helpers -/

/-- The reset state under `REFCFG`. -/
def ref : State := { State.reset with cfg := refCfg }

/-- The port events of one step that presents packet `p`. -/
def ask (s : State) (p : Bytes) : List PortEvent := (afterStep (presentPacket p s)).trace

/-- `"1111-1111-1111"`. -/
def text1111 : Bytes :=
  [0x31, 0x31, 0x31, 0x31, 0x2D, 0x31, 0x31, 0x31, 0x31, 0x2D, 0x31, 0x31, 0x31, 0x31]

/-- `"1234-4321-2413"`. -/
def text1234 : Bytes :=
  [0x31, 0x32, 0x33, 0x34, 0x2D, 0x34, 0x33, 0x32, 0x31, 0x2D, 0x32, 0x34, 0x31, 0x33]

/-- The read of V-RX1. -/
def readRx1 : Bytes := [0x02, 0x0B, 0x12, 0x34, 0x43, 0x21, 0x24, 0x13, 0x25, 0x10, 0x02, 0x40, 0x13]

/-- The read of V-RX2. -/
def readRx2 : Bytes := [0x02, 0x0B, 0x11, 0x11, 0x11, 0x11, 0x44, 0x44, 0x16, 0x00, 0x00, 0x00, 0x13]

/-- The read of V-RX9, whose group slot is reserved. -/
def readRx9 : Bytes := [0x02, 0x0B, 0x11, 0x11, 0x11, 0x11, 0x44, 0x44, 0x22, 0x00, 0x00, 0x00, 0x13]

/-- The read of V-RX16, whose address and group are both bad. -/
def readRx16 : Bytes := [0x02, 0x0B, 0x11, 0x11, 0x11, 0x11, 0x44, 0x45, 0x32, 0x00, 0x00, 0x00, 0x13]

/-- The read of V-RX15, whose last count digit is not decimal and whose address is bad. -/
def readRx15 : Bytes := [0x02, 0x0B, 0x11, 0x11, 0x11, 0x11, 0x44, 0x45, 0x16, 0x00, 0x00, 0x0A, 0x13]

/-- The listener table after V-DS1 to V-DS4. -/
def fourTiers : List Listener :=
  [⟨1, false, ⟨0, 0, 0⟩, false, 0⟩, ⟨2, false, ⟨0, 0, 0⟩, true, 0x39⟩,
    ⟨3, true, ⟨0x1B, 0xE4, 0x72⟩, false, 0⟩, ⟨4, true, ⟨0x1B, 0xE4, 0x72⟩, true, 0x39⟩]

/-- The event of V-DS6. -/
def eventDs6 : Event := ⟨⟨0x1B, 0xE4, 0x72⟩, 0x39, 0x39, some 60000⟩

/-- `refCfg` is well formed (R7), the premise of the statements about the tables. -/
theorem refCfg_wellFormed : refCfg.WellFormed :=
  ⟨by decide +kernel, by decide +kernel, by decide +kernel, by decide +kernel, by decide +kernel,
    by decide +kernel⟩

/-! ### WellFormed refuses: a byte string of 256 bytes (R91) -/

/-- A byte string no length byte can count. -/
def tooLong : Bytes := List.replicate 256 0

theorem test_illFormed_addrEnc : ¬ (Instr.addrEnc tooLong).WellFormed := by decide +kernel
theorem test_illFormed_addrDec : ¬ (Instr.addrDec tooLong).WellFormed := by decide +kernel
theorem test_illFormed_addrUnp6 : ¬ (Instr.addrUnp6 tooLong).WellFormed := by decide +kernel
theorem test_illFormed_frmOnce : ¬ (Instr.frmOnce tooLong 0 0).WellFormed := by decide +kernel
theorem test_illFormed_frmRep : ¬ (Instr.frmRep tooLong 0 0 1).WellFormed := by decide +kernel
theorem test_illFormed_txOnce : ¬ (Instr.txOnce tooLong 0 0).WellFormed := by decide +kernel
theorem test_illFormed_txRep : ¬ (Instr.txRep tooLong 0 0 1).WellFormed := by decide +kernel
theorem test_illFormed_ackCls : ¬ (Instr.ackCls tooLong).WellFormed := by decide +kernel
theorem test_illFormed_rxParse : ¬ (Instr.rxParse tooLong).WellFormed := by decide +kernel
theorem test_wellFormed_longest : (Instr.frmRep (List.replicate 255 0) 0 0 1).WellFormed := by decide +kernel

/-! ### Decoding, written out from R91 and R92 -/

theorem test_decode_addrEnc : decode [0x10, 0x02, 0x31, 0x2D] = .ok (.addrEnc [0x31, 0x2D]) := by decide
theorem test_decode_addrDec : decode [0x11, 0x03, 0x1B, 0xE4, 0x72] = .ok (.addrDec [0x1B, 0xE4, 0x72]) := by
  decide
theorem test_decode_addrUnp6 : decode [0x12, 0x01, 0x99] = .ok (.addrUnp6 [0x99]) := by decide
theorem test_decode_timeDec : decode [0x20, 0xCF] = .ok (.timeDec 0xCF) := by decide
theorem test_decode_timeEnc : decode [0x21, 0x01, 0x02, 0x03, 0x04] = .ok (.timeEnc 0x01020304) := by decide
theorem test_decode_timeNorm : decode [0x22, 0x04, 0x10, 0x3B, 0x03, 0xE7] = .ok (.timeNorm 4 16 59 999) := by
  decide
theorem test_decode_cmdOpc : decode [0x30, 0x12, 0x34] = .ok (.cmdOpc 0x1234) := by decide
theorem test_decode_cmdGrp : decode [0x31, 0x1F, 0x01] = .ok (.cmdGrp 31 true) := by decide
theorem test_decode_cmdName : decode [0x32, 0x39] = .ok (.cmdName 0x39) := by decide
theorem test_decode_frmOnce : decode [0x40, 0x01, 0x41, 0x12, 0x34, 0x01, 0x02, 0x03, 0x04] =
    .ok (.frmOnce [0x41] 0x1234 0x01020304) := by decide
theorem test_decode_frmRep : decode [0x41, 0x01, 0x41, 0x12, 0x34, 0x01, 0x02, 0x03, 0x04, 0x01, 0x05] =
    .ok (.frmRep [0x41] 0x1234 0x01020304 0x0105) := by decide
theorem test_decode_txOnce : decode [0x42, 0x00, 0x12, 0x34, 0xFF, 0xFF, 0xFF, 0xFE] =
    .ok (.txOnce [] 0x1234 0xFFFFFFFE) := by decide
theorem test_decode_txRep : decode [0x43, 0x00, 0x12, 0x34, 0xFF, 0xFF, 0xFF, 0xFE, 0x00, 0xFF] =
    .ok (.txRep [] 0x1234 0xFFFFFFFE 0x00FF) := by decide
theorem test_decode_txStop : decode [0x44] = .ok .txStop := by decide
theorem test_decode_txVer : decode [0x45] = .ok .txVer := by decide
theorem test_decode_ackCls : decode [0x46, 0x02, 0x02, 0x03] = .ok (.ackCls [0x02, 0x03]) := by decide
theorem test_decode_rxParse : decode [0x50, 0x00] = .ok (.rxParse []) := by decide
theorem test_decode_rxPoll : decode [0x51] = .ok .rxPoll := by decide
theorem test_decode_rxVer : decode [0x52] = .ok .rxVer := by decide
theorem test_decode_dspAdd : decode [0x60, 0x01, 0x02, 0x02, 0x1B, 0xE4, 0x72, 0x39] =
    .ok (.dspAdd 0x0102 false true ⟨0x1B, 0xE4, 0x72⟩ 0x39) := by decide
theorem test_decode_dspStart : decode [0x61] = .ok .dspStart := by decide
theorem test_decode_dspStop : decode [0x62] = .ok .dspStop := by decide
theorem test_decode_dspEmit : decode [0x63, 0x1B, 0xE4, 0x72, 0x39, 0x01, 0x02, 0x00, 0x00, 0x00, 0xEA, 0x60] =
    .ok (.dspEmit ⟨0x1B, 0xE4, 0x72⟩ 0x39 0x0102 false 0xEA60) := by decide
theorem test_decode_sysStat : decode [0x70] = .ok .sysStat := by decide

/-- V-P1 to V-P5. -/
theorem test_reject_shape :
    [[], [0xFF], [0x00], [0x10], [0x10, 0x03, 0x31, 0x31]].map decode =
      [.error .emptyPacket, .error (.unknownCode 0xFF), .error (.unknownCode 0x00), .error .noLengthByte,
        .error .wrongLength] := by decide

/-- V-P8, V-CM17, V-DS5: the must-be-zero bits. -/
theorem test_reject_reservedBits :
    [[0x63, 0x1B, 0xE4, 0x72, 0x39, 0x00, 0x39, 0x03, 0x00, 0x00, 0xEA, 0x60], [0x31, 0x19, 0x02],
        [0x60, 0x00, 0x05, 0x04, 0x00, 0x00, 0x00, 0x00]].map decode =
      [.error .reservedBit, .error .reservedBit, .error .reservedBit] := by decide

/-! ### Words of the opcode table -/

/-- The first byte of the packet is bits 7:0 of the word. -/
theorem test_tableWord_timeEnc : decodeTableWord 40 0x0403020121 = some (.timeEnc 0x01020304) := by decide

/-- A row the table gives one byte: the operands read as zeros. -/
theorem test_tableWord_frmRep : decodeTableWord 8 0x41 = some (.frmRep [] 0 0 0) := by decide

/-- A row with its length byte set. -/
theorem test_tableWord_addrEnc : decodeTableWord 16 0x0210 = some (.addrEnc [0x00, 0x00]) := by decide

theorem test_tableWord_refused : decodeTableWord 8 0xFF = none := by decide

/-- The next step runs the word's operation: after reset `RX.VER` is `VersionNotYetKnown` (section 2.5). -/
theorem test_withFetchWord : (afterStep (ref.withFetchWord 8 0x52)).trace = [.res [0x0B]] := by decide +kernel

/-- From the reset state itself, under the open configuration. -/
theorem test_withFetchWord_reset : ∃ t, step (State.reset.withFetchWord 64 0x60) = .next t := ⟨_, rfl⟩

/-! ### Operations -/

/-- V-A3. -/
theorem test_addrEnc : ask ref (0x10 :: 0x0E :: text1234) = [.res [0x00, 0x1B, 0xE4, 0x72]] := by decide +kernel

/-- V-A12: 14 bytes with the groups in the wrong places. -/
theorem test_addrEnc_groups : ask ref [0x10, 0x0E, 0x31, 0x31, 0x31, 0x31, 0x31, 0x2D, 0x31, 0x31, 0x31, 0x2D, 0x31,
    0x31, 0x31, 0x31] = [.res [0x01]] := by decide +kernel

/-- V-A15. -/
theorem test_addrDec : ask ref [0x11, 0x03, 0x55, 0xAA, 0x33] = [.res [0x00, 0x32, 0x32, 0x32, 0x32, 0x2D, 0x33,
    0x33, 0x33, 0x33, 0x2D, 0x31, 0x34, 0x31, 0x34]] := by decide +kernel

/-- V-A18. -/
theorem test_addrUnp6 : ask ref [0x12, 0x06, 0x12, 0x34, 0x43, 0x21, 0x24, 0x13] =
    [.res [0x00, 0x1B, 0xE4, 0x72]] := by decide +kernel

/-- V-A23: the decimal check comes before the digit ranges. -/
theorem test_addrUnp6_order : ask ref [0x12, 0x06, 0x15, 0x1A, 0x11, 0x11, 0x11, 0x11] = [.res [0x07]] := by
  decide +kernel

/-- V-T12. -/
theorem test_timeDec : ask ref [0x20, 0xFF] = [.res [0x00, 0x07, 0x53, 0x00, 0x00]] := by decide +kernel

/-- V-T37. -/
theorem test_timeEnc : ask ref [0x21, 0x00, 0x00, 0xEE, 0x48] = [.res [0x00, 0x4F]] := by decide +kernel

/-- V-T42: a negative duration. -/
theorem test_timeEnc_negative : ask ref [0x21, 0xFF, 0xFF, 0xFF, 0xFF] = [.res [0x05]] := by decide +kernel

/-- V-TN10: the rounding carries into the second. -/
theorem test_timeNorm : ask ref [0x22, 0x00, 0x00, 0x00, 0x03, 0x6C] = [.res [0x00, 0x00, 0x00, 0x03, 0xE8]] := by
  decide +kernel

/-- V-TN3: a remainder of exactly 125. -/
theorem test_timeNorm_half : ask ref [0x22, 0x00, 0x00, 0x00, 0x00, 0x7D] = [.res [0x00, 0x00, 0x00, 0x00, 0x00]] := by
  decide +kernel

/-- V-CM3. -/
theorem test_cmdOpc : ask ref [0x30, 0x00, 0x19] = [.res [0x00, 0x19, 0x02]] := by decide +kernel

/-- V-CM5: the first index past the table. -/
theorem test_cmdOpc_end : ask ref [0x30, 0x00, 0x40] = [.res [0x03]] := by decide +kernel

/-- V-CM9. -/
theorem test_cmdGrp : ask ref [0x31, 0x19, 0x01] = [.res [0x00, 0x39, 0x00, 0x39]] := by decide +kernel

/-- V-CM16: index 32. -/
theorem test_cmdGrp_end : ask ref [0x31, 0x20, 0x00] = [.res [0x04]] := by decide +kernel

/-- V-CM18. -/
theorem test_cmdName : ask ref [0x32, 0x12] = [.res [0x00, 0x00, 0x12]] := by decide +kernel

/-- V-CM19. -/
theorem test_cmdName_absent : ask ref [0x32, 0x40] = [.res [0x02]] := by decide +kernel

/-- V-F1. -/
theorem test_frmOnce : ask ref (0x40 :: 0x0E :: text1234 ++ [0x00, 0x39, 0x00, 0x00, 0xEA, 0x60]) =
    [.res [0x00, 0x01, 0x06, 0xF1, 0x1B, 0xE4, 0x72, 0x39, 0x4F]] := by decide +kernel

/-- V-F8: the duration of an untimed command is checked all the same. -/
theorem test_frmOnce_order : ask ref (0x40 :: 0x0E :: text1111 ++ [0x00, 0x10, 0x00, 0xEA, 0x60, 0x01]) =
    [.res [0x05]] := by decide +kernel

/-- V-F2. -/
theorem test_frmRep : ask ref (0x41 :: 0x0E :: text1234 ++ [0x00, 0x39, 0x00, 0x00, 0xEA, 0x60, 0x00, 0x05]) =
    [.res [0x00, 0x01, 0x07, 0xF2, 0x1B, 0xE4, 0x72, 0x39, 0x4F, 0x05]] := by decide +kernel

/-- V-F11: the duration before the interval. -/
theorem test_frmRep_order : ask ref (0x41 :: 0x0E :: text1111 ++ [0x00, 0x10, 0xFF, 0xFF, 0xFF, 0xFB, 0x00, 0x00]) =
    [.res [0x05]] := by decide +kernel

/-- V-X1. -/
theorem test_txOnce : ask { ref with txAnswers := [some [0x02, 0x03, 0xA0, 0x00, 0x00]] }
    (0x42 :: 0x0E :: text1111 ++ [0x00, 0x10, 0x00, 0x00, 0x00, 0x00]) =
    [.txw [0x01, 0x06, 0xF1, 0x00, 0x00, 0x00, 0x10, 0x00], .txr (some [0x02, 0x03, 0xA0, 0x00, 0x00]),
      .res [0x00, 0x00, 0x00]] := by decide +kernel

/-- V-X2: the read is answered by none. -/
theorem test_txOnce_timeout : ask { ref with txAnswers := [none] }
    (0x42 :: 0x0E :: text1111 ++ [0x00, 0x10, 0x00, 0x00, 0x00, 0x00]) =
    [.txw [0x01, 0x06, 0xF1, 0x00, 0x00, 0x00, 0x10, 0x00], .txr none, .res [0x07]] := by decide +kernel

/-- V-X6, S8: no transfer on a bad interval. -/
theorem test_txRep_interval : ask { ref with txAnswers := [none] }
    (0x43 :: 0x0E :: text1111 ++ [0x00, 0x10, 0x00, 0x00, 0x00, 0x00, 0x01, 0x00]) = [.res [0x06]] := by
  decide +kernel

/-- V-X8. -/
theorem test_txStop : ask { ref with txAnswers := [some [0x02, 0x03, 0xA0, 0x05, 0x00]] } [0x44] =
    [.txw [0x01, 0x01, 0xF3], .txr (some [0x02, 0x03, 0xA0, 0x05, 0x00]), .res [0x00, 0x03, 0x00]] := by
  decide +kernel

/-- V-X9. -/
theorem test_txVer : ask { ref with txAnswers := [some [0x02, 0x03, 0xA0, 0x01, 0x13]] } [0x45] =
    [.txw [0x01, 0x01, 0xF0], .txr (some [0x02, 0x03, 0xA0, 0x01, 0x13]), .res [0x00, 0x13, 0x01, 0x03]] := by
  decide +kernel

/-- V-X10: the class is not `FIRMWARE`. -/
theorem test_txVer_class : ask { ref with txAnswers := [some [0x02, 0x03, 0xA0, 0x00, 0x13]] } [0x45] =
    [.txw [0x01, 0x01, 0xF0], .txr (some [0x02, 0x03, 0xA0, 0x00, 0x13]), .res [0x07]] := by decide +kernel

/-- V-K2. -/
theorem test_ackCls : ask ref [0x46, 0x05, 0x02, 0x03, 0xA0, 0x01, 0x13] = [.res [0x00, 0x01, 0x13]] := by
  decide +kernel

/-- V-K8: the header before the status. -/
theorem test_ackCls_header : ask ref [0x46, 0x05, 0x02, 0x03, 0xA1, 0x02, 0x00] = [.res [0x07]] := by decide +kernel

/-- V-RX1, and the version cell. -/
theorem test_rxParse : ask ref (0x50 :: 0x0D :: readRx1) = [.res [0x00, 0x1B, 0xE4, 0x72, 0x39, 0x00, 0x39, 0x01,
    0x00, 0x00, 0xEA, 0x60]] ∧
    (afterStep (presentPacket (0x50 :: 0x0D :: readRx1) ref)).rxver = some 0x13 := by decide +kernel

/-- V-RX15: the decimal check of all ten bytes before the address. -/
theorem test_rxParse_order : ask ref (0x50 :: 0x0D :: readRx15) = [.res [0x07]] := by decide +kernel

/-- V-RX2 by `RX.POLL`. -/
theorem test_rxPoll : ask { ref with rxAnswers := [some readRx2] } [0x51] = [.rxr (some readRx2),
    .res [0x00, 0x00, 0x00, 0xFF, 0x10, 0x00, 0x10, 0x00, 0x00, 0x00, 0x00, 0x00]] := by decide +kernel

/-- Section 2.5: after V-RX1, `RX.VER` gives 13. -/
theorem test_rxVer : ask { ref with rxver := some 0x13 } [0x52] = [.res [0x00, 0x13]] := by decide +kernel

/-- V-DS2. -/
theorem test_dspAdd : ask { ref with lis := fourTiers.take 1 } [0x60, 0x00, 0x02, 0x02, 0x00, 0x00, 0x00, 0x39] =
    [.res [0x00, 0x00, 0x01]] := by decide +kernel

/-- V-DS15: the 17th entry. -/
theorem test_dspAdd_full : ask { ref with lis := List.replicate 16 ⟨1, false, ⟨0, 0, 0⟩, false, 0⟩ }
    [0x60, 0x00, 0x02, 0x02, 0x00, 0x00, 0x00, 0x39] = [.res [0x0C]] := by decide +kernel

/-- V-DS12, with a fault latched before. -/
theorem test_dspStart :
    runFlags (afterStep (presentPacket [0x61] { ref with dfault := 4 })) = (true, false, 0) := by decide +kernel

/-- V-DS13. -/
theorem test_dspStart_running : ask { ref with run := true } [0x61] = [.res [0x0C]] := by decide +kernel

/-- R251: (1, 0) to (1, 1). -/
theorem test_dspStop : runFlags (afterStep (presentPacket [0x62] { ref with run := true })) = (true, true, 0) := by
  decide +kernel

/-- V-DS14. -/
theorem test_dspStop_stopped : runFlags (afterStep (presentPacket [0x62] ref)) = (false, false, 0) := by
  decide +kernel

/-- V-DS6: the callbacks in the order 4, 3, 2, 1. -/
theorem test_dspEmit : ask { ref with lis := fourTiers }
    [0x63, 0x1B, 0xE4, 0x72, 0x39, 0x00, 0x39, 0x01, 0x00, 0x00, 0xEA, 0x60] =
    [.cb 4 eventDs6, .cb 3 eventDs6, .cb 2 eventDs6, .cb 1 eventDs6, .res [0x00, 0x00, 0x04]] := by decide +kernel

/-- V-DS7: the callbacks in the order 3, 1. -/
theorem test_dspEmit_two : (ask { ref with lis := fourTiers }
    [0x63, 0x1B, 0xE4, 0x72, 0x10, 0x00, 0x10, 0x00, 0x00, 0x00, 0x00, 0x00]).getLast? =
    some (.res [0x00, 0x00, 0x02]) := by decide +kernel

/-- R42, every field at once, written out: `DFAULT` 4, version 13 known, two entries. -/
theorem test_sysStat : ask { ref with dfault := 4, rxver := some 0x13, lis := fourTiers.take 2 } [0x70] =
    [.res [0x00, 0x44, 0x13, 0x00, 0x02]] := by decide +kernel

/-- R247: a stop request is observed before any read. -/
theorem test_dispatcher_stop :
    runFlags (dispatcherTurn { ref with run := true, stopReq := true, rxAnswers := [some readRx1] }) =
      (false, false, 0) := by decide +kernel

/-- R247: an unknown group ends the polling with `DFAULT` 4 (V-RX9). -/
theorem test_dispatcher_fault :
    runFlags (dispatcherTurn { ref with run := true, rxAnswers := [some readRx9] }) = (false, false, 4) := by
  decide +kernel

/-- R98: the 13 bytes of a callback transfer. -/
theorem test_callbackBytes : callbackBytes 4 eventDs6 =
    [0x00, 0x04, 0x1B, 0xE4, 0x72, 0x39, 0x00, 0x39, 0x01, 0x00, 0x00, 0xEA, 0x60] := by decide

/-! ### Witnesses: packets and steps -/

theorem witness_DecodeOfEncodeIsIdentity :
    (Instr.txRep text1234 0x39 60000 255).WellFormed ∧ Instr.sysStat.WellFormed := by decide

theorem witness_EncodeOfDecodeIsIdentity :
    decode [0x11, 0x03, 0x1B, 0xE4, 0x72] = .ok (.addrDec [0x1B, 0xE4, 0x72]) := by decide

theorem witness_PacketCheckIsExact : packetLegal [0x44] = true ∧ packetLegal [0x44, 0x00] = false := by decide

/-- The check at the edge of each clause: the shortest packet of each counted format, and the reserved bits. -/
theorem witness_packetLegal_edges :
    [[0x10, 0x00], [0x10], [0x31, 0x00, 0x01], [0x31, 0x00, 0x02], [0x60, 0, 0, 3, 0, 0, 0, 0],
        [0x60, 0, 0, 4, 0, 0, 0, 0], [0x99], []].map packetLegal =
      [true, false, true, false, true, false, false, false] := by decide

theorem witness_StepRunsDecodedOperation :
    { ref with agenda := [.host [0x44]] }.agenda = .host [0x44] :: [] ∧ decode [0x44] = .ok .txStop :=
  ⟨rfl, by decide⟩

theorem witness_EmptyAgendaIsIdle : State.reset.agenda = [] := rfl

theorem witness_ResetTurnGivesResetValues :
    { ref with run := true, agenda := [.reset] }.agenda = .reset :: [] := rfl

/-! ### Witnesses: address codec -/

theorem witness_AddrEncAnswer : ValidText text1234 ∧ ¬ ValidText [] ∧ ¬ ValidText (0x35 :: text1234.tail) :=
  ⟨by decide, by decide, by decide⟩

theorem witness_AddrDecAnswer : ([0x00, 0x00] : Bytes).length ≠ 3 := by decide

theorem witness_AddressRoundTrips : addrEnc text1234 = .ok ⟨0x1B, 0xE4, 0x72⟩ := by decide

/-- The readings of the bytes of V-A18. -/
def pairs18 : List (Fin 10 × Fin 10) := [(1, 2), (3, 4), (4, 3), (2, 1), (2, 4), (1, 3)]

/-- The readings of the bytes of V-A21, whose second digit is 0. -/
def pairs21 : List (Fin 10 × Fin 10) := [(1, 0), (1, 1), (1, 1), (1, 1), (1, 1), (1, 1)]

theorem witness_AddrUnp6Answer_width : ([0x11] : Bytes).length ≠ 6 := by decide

theorem witness_AddrUnp6Answer_decimal : ([0x1A, 0x11, 0x11, 0x11, 0x11, 0x11] : Bytes).length = 6 ∧
    ∃ b ∈ ([0x1A, 0x11, 0x11, 0x11, 0x11, 0x11] : Bytes), digits2 ref.cfg b = none := by decide +kernel

theorem witness_AddrUnp6Answer_digits :
    ([0x10, 0x11, 0x11, 0x11, 0x11, 0x11] : Bytes).map (digits2 ref.cfg) = pairs21.map some ∧
      ¬ AddressDigits pairs21 12 := by decide +kernel

theorem witness_AddrUnp6Answer_ok :
    ([0x12, 0x34, 0x43, 0x21, 0x24, 0x13] : Bytes).map (digits2 ref.cfg) = pairs18.map some ∧
      AddressDigits pairs18 12 := by decide +kernel

theorem witness_ReceiveWidthAgreesWithText : ValidText text1234 ∧
    ([0x12, 0x34, 0x43, 0x21, 0x24, 0x13] : Bytes).map (digits2 refCfg) = pairs18.map some ∧
    ∀ g < 3, ∀ j < 4, digitAt pairs18 (4 * g + j) = byteVal text1234 (5 * g + j) - 0x30 := by decide +kernel

/-! ### Witnesses: time codec -/

theorem witness_TimeEncAnswer : EncodableDur (0x00EA6000 : Dur).toInt ∧ EncodableDur (0 : Dur).toInt ∧
    ¬ EncodableDur (0x00EA6001 : Dur).toInt ∧ ¬ EncodableDur (0xFFFFFFFF : Dur).toInt := by decide

theorem witness_CanonicalBytesRoundTrip : CanonicalTime 0x18 ∧ ¬ CanonicalTime 0x17 := by decide

theorem witness_EncodingTruncates : EncodableDur 15360000 ∧ EncodableDur 0 := by decide

theorem witness_TimeNormAnswer : (59 < (60 : Byte).toNat) ∧ (59 : Byte).toNat ≤ 59 ∧ (999 : Half).toNat ≤ 999 ∧
    999 < (1000 : Half).toNat := by decide

theorem witness_NormalisedIsNearestQuarterStep : timeNorm 255 59 59 999 = .ok 921600000 := by decide

/-! ### Witnesses: command table -/

theorem witness_CmdOpcAnswer : ref.cfg.nameRom[(0x3F : Half).toNat]? = some ⟨0x3F, .timed⟩ ∧
    ref.cfg.nameRom.length ≤ (0x40 : Half).toNat := by decide +kernel

theorem witness_CmdGrpAnswer : slotAt ref.cfg (31 : Byte).toNat true = some ⟨0x3F, 0x3F⟩ ∧
    slotAt ref.cfg (22 : Byte).toNat false = none ∧ 31 < (32 : Byte).toNat := by decide +kernel

theorem witness_CmdNameAnswer : ref.cfg.WellFormed ∧
    ref.cfg.nameRom[(0x12 : Half).toNat]? = some ⟨0x12, .simple⟩ ∧
    (∀ row ∈ ref.cfg.nameRom, row.opcode ≠ 0x40) :=
  ⟨refCfg_wellFormed, by decide +kernel, by decide +kernel⟩

theorem witness_NameAndOpcodeAreInverse : refCfg.WellFormed ∧ opcodeFor refCfg 0x39 = .ok (0x39, .timed) ∧
    nameFor refCfg 0x39 = .ok 0x39 :=
  ⟨refCfg_wellFormed, by decide +kernel, by decide +kernel⟩

theorem witness_GroupAndNameTablesAgree : refCfg.WellFormed ∧ lookupGroup refCfg 25 true = .ok (0x39, 0x39) ∧
    lookupGroup refCfg 25 false = .ok (0x19, 0x19) :=
  ⟨refCfg_wellFormed, by decide +kernel, by decide +kernel⟩

/-! ### Witnesses: frames and transmit -/

/-- A timed command, whose time byte is 0x4F at 60 000 ms (V-F1). -/
theorem witness_sendBody_timed : SendBody ref.cfg text1234 0x39 60000 [0x1B, 0xE4, 0x72, 0x39, 0x4F] :=
  ⟨by decide, by decide, ⟨0x39, .timed⟩, 0x4F, by decide +kernel,
    fun _ => ⟨4, 15, by decide, by decide, by decide, by decide, by decide, by decide⟩,
    fun h => absurd rfl h, by decide⟩

/-- An untimed command, whose time byte is 0x00 (V-F4). -/
theorem witness_sendBody_untimed : SendBody ref.cfg text1111 0x12 5000 [0x00, 0x00, 0x00, 0x12, 0x00] :=
  ⟨by decide, by decide, ⟨0x12, .simple⟩, 0x00, by decide +kernel, fun h => by simp at h, fun _ => rfl, by decide⟩

/-- The three faults, each at its edge (V-F9, V-F10, V-F8). -/
theorem witness_sendFault : SendFault ref.cfg (text1111.take 13) 0x40 (-1) 0x01 ∧
    SendFault ref.cfg text1111 0x40 (-1) 0x03 ∧ SendFault ref.cfg text1111 0x3F 15360001 0x05 :=
  ⟨.inl (by decide), .inr (.inl ⟨by decide, by decide +kernel, rfl⟩),
    .inr (.inr ⟨by decide, by decide +kernel, by decide, rfl⟩)⟩

theorem witness_interval : 1 ≤ (1 : Half).toNat ∧ (255 : Half).toNat ≤ 255 ∧ (0 : Half).toNat < 1 ∧
    255 < (256 : Half).toNat := by decide

/-- A state whose next transmit read is an acknowledgement with status `st` and trailer `tr`. -/
def withAck (st tr : Byte) : State := { ref with txAnswers := [some [0x02, 0x03, 0xA0, st, tr]] }

theorem ackRead_withAck (st tr : Byte) : AckRead (withAck st tr).cfg (txAnswer (withAck st tr)) st tr := rfl

/-- A recognised status (TX.ONCE, TX.REP, TX.STOP; V-X4). -/
theorem witness_ackPacket_status :
    (withAck 0x02 0x00).cfg.WellFormed ∧
      AckPacket (withAck 0x02 0x00).cfg (txAnswer (withAck 0x02 0x00)) [0x08] :=
  ⟨refCfg_wellFormed, .inl ⟨0x02, 0x00, rfl, by decide +kernel⟩⟩

/-- A status outside the six (V-K7). -/
theorem witness_ackPacket_unknownStatus :
    AckPacket (withAck 0x06 0x00).cfg (txAnswer (withAck 0x06 0x00)) [0x07] :=
  .inr (.inl ⟨0x06, 0x00, rfl, by decide +kernel, rfl⟩)

/-- An absent read (V-X2). -/
theorem witness_ackPacket_absent :
    AckPacket ref.cfg (txAnswer { ref with txAnswers := [none] }) [0x07] :=
  .inr (.inr ⟨fun st tr h => by simp [AckRead, txAnswer, clip] at h, rfl⟩)

/-- `TX.VER`, its first two clauses (V-X9, V-X11). -/
theorem witness_TxVerAnswer_firmware :
    AckRead (withAck 0x01 0x13).cfg (txAnswer (withAck 0x01 0x13)) (withAck 0x01 0x13).cfg.stFirmware 0x13 ∧
      digits2 (withAck 0x01 0x13).cfg 0x13 = some (1, 3) ∧
      AckRead (withAck 0x01 0x1A).cfg (txAnswer (withAck 0x01 0x1A)) (withAck 0x01 0x1A).cfg.stFirmware 0x1A ∧
      digits2 (withAck 0x01 0x1A).cfg 0x1A = none :=
  ⟨rfl, by decide +kernel, rfl, by decide +kernel⟩

/-- `TX.VER`, its third clause, with the class `OK` (V-X10) and with a fault. -/
theorem witness_TxVerAnswer_other :
    AckPacket (withAck 0x00 0x13).cfg (txAnswer (withAck 0x00 0x13)) [0x00, 0x00, 0x13] ∧
      (∀ tr, ¬ AckRead (withAck 0x00 0x13).cfg (txAnswer (withAck 0x00 0x13))
        (withAck 0x00 0x13).cfg.stFirmware tr) ∧
      AckPacket (withAck 0x03 0x00).cfg (txAnswer (withAck 0x03 0x00)) [0x09] ∧
      (∀ tr, ¬ AckRead (withAck 0x03 0x00).cfg (txAnswer (withAck 0x03 0x00))
        (withAck 0x03 0x00).cfg.stFirmware tr) := by
  refine ⟨.inl ⟨0x00, 0x13, rfl, by decide +kernel⟩, fun tr h => ?_, .inl ⟨0x03, 0x00, rfl, by decide +kernel⟩,
    fun tr h => ?_⟩
  · have := Option.some.inj h; simp [refCfg, withAck, ref, Bytes3.toList] at this
  · have := Option.some.inj h; simp [refCfg, withAck, ref, Bytes3.toList] at this

theorem witness_AckClsAnswer : ref.cfg.WellFormed ∧
    AckPacket ref.cfg (some [0x02, 0x03, 0xA0, 0x01, 0x13]) [0x00, 0x01, 0x13] :=
  ⟨refCfg_wellFormed, .inl ⟨0x01, 0x13, rfl, by decide +kernel⟩⟩

theorem witness_NoIoOnInvalidInput :
    exec (.txRep text1111 0x10 0 256) ref = .next (answered ref [0x06]) := by rfl

/-- Two states that differ in their flags and in the adapter's answer, and write the same frame. -/
theorem witness_FrameDependsOnOperandsOnly :
    (withAck 0x00 0x00).cfg = { withAck 0x05 0x00 with run := true }.cfg ∧
      (∃ t, exec .txStop (withAck 0x00 0x00) = .next t ∧
        PortEvent.txw [0x01, 0x01, 0xF3] ∈ t.trace.drop (withAck 0x00 0x00).trace.length) ∧
      (∃ t, exec .txStop { withAck 0x05 0x00 with run := true } = .next t ∧
        PortEvent.txw [0x01, 0x01, 0xF3] ∈ t.trace.drop (withAck 0x05 0x00).trace.length) :=
  ⟨rfl, ⟨_, rfl, by decide +kernel⟩, ⟨_, rfl, by decide +kernel⟩⟩

/-! ### Witnesses: receive -/

/-- The readings of V-RX1. -/
def pairsRx1 : List (Fin 10 × Fin 10) :=
  [(1, 2), (3, 4), (4, 3), (2, 1), (2, 4), (1, 3), (2, 5), (1, 0), (0, 2), (4, 0)]

/-- The readings of V-RX2. -/
def pairsRx2 : List (Fin 10 × Fin 10) :=
  [(1, 1), (1, 1), (1, 1), (1, 1), (4, 4), (4, 4), (1, 6), (0, 0), (0, 0), (0, 0)]

/-- The readings of V-RX9. -/
def pairsRx9 : List (Fin 10 × Fin 10) :=
  [(1, 1), (1, 1), (1, 1), (1, 1), (4, 4), (4, 4), (2, 2), (0, 0), (0, 0), (0, 0)]

/-- The readings of V-RX16. -/
def pairsRx16 : List (Fin 10 × Fin 10) :=
  [(1, 1), (1, 1), (1, 1), (1, 1), (4, 4), (4, 5), (3, 2), (0, 0), (0, 0), (0, 0)]

theorem witness_eventRead_timed : EventRead refCfg (some readRx1) pairsRx1 0x13 ∧ digitAt pairsRx1 14 = 1 :=
  ⟨⟨(readRx1.drop 2).take 10, by decide, by decide +kernel, by decide⟩, by decide⟩

theorem witness_eventRead_untimed : EventRead refCfg (some readRx2) pairsRx2 0x13 ∧ digitAt pairsRx2 14 ≠ 1 :=
  ⟨⟨(readRx2.drop 2).take 10, by decide, by decide +kernel, by decide⟩, by decide⟩

/-- A timed event (V-RX1). -/
theorem witness_parsesTo_timed : ParsesTo refCfg (some readRx1) eventDs6 0x13 :=
  ⟨pairsRx1, ⟨0x39, 0x39⟩, witness_eventRead_timed.1, by decide, by decide +kernel, by decide +kernel⟩

/-- An untimed event (V-RX2). -/
theorem witness_parsesTo_untimed :
    ParsesTo refCfg (some readRx2) ⟨⟨0x00, 0x00, 0xFF⟩, 0x10, 0x10, none⟩ 0x13 :=
  ⟨pairsRx2, ⟨0x10, 0x10⟩, witness_eventRead_untimed.1, by decide, by decide +kernel, by decide +kernel⟩

/-- Absent, short, wrong header, not decimal (V-RX20, V-RX18, V-RX17, V-RX15). -/
theorem witness_parseInvalidResponse : ParseInvalidResponse refCfg none ∧
    ParseInvalidResponse refCfg (some (readRx2.take 12)) ∧
    ParseInvalidResponse refCfg (some (0x02 :: 0x0C :: readRx2.drop 2)) ∧
    ParseInvalidResponse refCfg (some readRx15) :=
  ⟨invalidResponse_of_parseEvent (by decide +kernel), invalidResponse_of_parseEvent (by decide +kernel),
    invalidResponse_of_parseEvent (by decide +kernel), invalidResponse_of_parseEvent (by decide +kernel)⟩

/-- A bad address, though the group is bad as well (V-RX16). -/
theorem witness_parseInvalidAddress : ParseInvalidAddress refCfg (some readRx16) :=
  ⟨pairsRx16, 0x13, ⟨(readRx16.drop 2).take 10, by decide, by decide +kernel, by decide⟩, by decide⟩

/-- A reserved slot (V-RX9). -/
theorem witness_parseUnknownGroup : ParseUnknownGroup refCfg (some readRx9) :=
  ⟨pairsRx9, 0x13, ⟨(readRx9.drop 2).take 10, by decide, by decide +kernel, by decide⟩, by decide,
    by decide +kernel⟩

/-- The two named readings at their edges (R104): 0x99 and 0x9A, 99 and 100. -/
theorem witness_ParseOutcomesPartitionReads_digits : refCfg.digits = .bcd ∧
    [0x25, 0x99, 0x9A].map (digits2 refCfg) = [some (2, 5), some (9, 9), none] ∧
    { refCfg with digits := .divmod }.digits = .divmod ∧
    [0x25, 99, 100].map (digits2 { refCfg with digits := .divmod }) = [some (3, 7), some (9, 9), none] :=
  ⟨rfl, by decide +kernel, rfl, by decide +kernel⟩

/-- The next receive read is `a`: what `RX.POLL` and the dispatcher's step parse. -/
theorem witness_rxAnswer (a : Bytes) (h : a.length ≤ 13) :
    rxAnswer { ref with rxAnswers := [some a] } = some a := by
  simp [rxAnswer, clip, List.take_of_length_le h]

theorem witness_RxVerAnswer : { ref with rxver := some 0x13 }.rxver = some 0x13 ∧ ref.rxver = none := ⟨rfl, rfl⟩

theorem witness_TimedExactlyWhenFlagIsOne :
    parseEvent refCfg (some readRx1) = .ok (eventDs6, 0x13) ∧
      parseEvent refCfg (some readRx2) = .ok (⟨⟨0x00, 0x00, 0xFF⟩, 0x10, 0x10, none⟩, 0x13) := by decide +kernel

/-- A parse that returns an event, one that does not, and an operation that does not parse. -/
theorem witness_VersionCellWrittenOnSuccessOnly :
    (∃ t, exec (.rxParse readRx1) ref = .next t) ∧ ParsesTo ref.cfg (some readRx1) eventDs6 0x13 ∧
      (∃ t, exec .rxPoll { ref with rxAnswers := [none] } = .next t) ∧
      (∀ ev v, ¬ ParsesTo ref.cfg (rxAnswer { ref with rxAnswers := [none] }) ev v) ∧
      (∃ t, exec .sysStat ref = .next t) ∧ ref.stopReq = false ∧ { ref with stopReq := true }.stopReq = true := by
  refine ⟨⟨_, rfl⟩, witness_parsesTo_timed, ⟨_, rfl⟩, fun ev v h => ?_, ⟨_, rfl⟩, rfl, rfl⟩
  have := parseEvent_of_parsesTo h
  simp [rxAnswer, clip, parseEvent] at this

/-! ### Witnesses: dispatcher -/

/-- 15 of 16 entries, 16 of 16, and the unbounded table. -/
theorem witness_DspAddAnswer :
    (∀ n, ref.cfg.nlis = some n → (List.replicate 15 (⟨1, false, ⟨0, 0, 0⟩, false, 0⟩ : Listener)).length < n) ∧
      ref.cfg.nlis = some 16 ∧
      16 ≤ (List.replicate 16 (⟨1, false, ⟨0, 0, 0⟩, false, 0⟩ : Listener)).length ∧
      { refCfg with nlis := none }.nlis = none :=
  ⟨fun n hn => by cases hn; decide, rfl, by decide, rfl⟩

theorem witness_DspStartAnswer : ref.run = false ∧ { ref with run := true }.run = true := ⟨rfl, rfl⟩

theorem witness_DspEmitAnswer : eventDs6 = ⟨⟨0x1B, 0xE4, 0x72⟩, 0x39, 0x39, if true then some 60000 else none⟩ := rfl

/-- A running dispatcher whose turn it is, with the next receive read. -/
def polling (a : Option Bytes) : State :=
  { ref with run := true, agenda := [.dispatcher], rxAnswers := [a] }

theorem witness_DispatcherStepBranches : (polling none).agenda = .dispatcher :: [] ∧ (polling none).run = true ∧
    (polling none).stopReq = false ∧ ParsesTo (polling (some readRx1)).cfg (rxAnswer (polling (some readRx1))) eventDs6 0x13 ∧
    ParseInvalidResponse (polling none).cfg (rxAnswer (polling none)) ∧
    ParseInvalidAddress (polling (some readRx16)).cfg (rxAnswer (polling (some readRx16))) ∧
    ParseUnknownGroup (polling (some readRx9)).cfg (rxAnswer (polling (some readRx9))) :=
  ⟨rfl, rfl, rfl, witness_parsesTo_timed, witness_parseInvalidResponse.1, witness_parseInvalidAddress,
    witness_parseUnknownGroup⟩

theorem witness_DispatcherStepBranches_stop :
    { polling none with stopReq := true }.run = true ∧ { polling none with stopReq := true }.stopReq = true ∧
      { polling none with run := false }.run = false := ⟨rfl, rfl, rfl⟩

theorem witness_FourTiersMostSpecificFirst : { ref with lis := fourTiers }.lis =
    [⟨1, false, ⟨0, 0, 0⟩, false, 0⟩, ⟨2, false, ⟨0, 0, 0⟩, true, 0x39⟩,
      ⟨3, true, ⟨0x1B, 0xE4, 0x72⟩, false, 0⟩, ⟨4, true, ⟨0x1B, 0xE4, 0x72⟩, true, 0x39⟩] := rfl

theorem witness_HostOperationsDriveStateMachine :
    (∃ t, exec .dspStart ref = .next t) ∧ (∃ t, exec .dspStop { ref with run := true } = .next t) ∧
      (∃ t, exec .sysStat ref = .next t) ∧ Instr.sysStat ≠ .dspStart ∧ Instr.sysStat ≠ .dspStop :=
  ⟨⟨_, rfl⟩, ⟨_, rfl⟩, ⟨_, rfl⟩, by decide, by decide⟩

/-! ### Witnesses: the whole block -/

/-- A running dispatcher with a listener and a history meets the invariant, and takes a step. -/
theorem witness_StepKeepsInvariant :
    BlockInv { polling (some readRx1) with lis := fourTiers, trace := [.txw [0, 0, 0], .txr none, .res [0x07]] } ∧
      ∃ t, step { polling (some readRx1) with
        lis := fourTiers, trace := [.txw [0, 0, 0], .txr none, .res [0x07]] } = .next t :=
  ⟨⟨by decide, by decide, by decide, by decide, by decide, by decide⟩, ⟨_, rfl⟩⟩

theorem witness_ConfigurationIsConstant : ∃ t, step (polling none) = .next t := ⟨_, rfl⟩

theorem witness_OnlyResetForgets :
    (∃ t, step (polling none) = .next t) ∧ (polling none).agenda.head? ≠ some .reset := ⟨⟨_, rfl⟩, by decide⟩

/-- A stop request is pending, and the agenda holds a host packet and a dispatcher turn. -/
theorem witness_NoPollAfterStop :
    Halting { polling none with stopReq := true, agenda := [.host [0x70], .dispatcher] } ∧
      (∀ p, Turn.host p ∈ { polling none with stopReq := true, agenda := [.host [0x70], .dispatcher] }.agenda →
        decode p ≠ .ok .dspStart) ∧
      (afterSteps 1 { polling none with stopReq := true, agenda := [.host [0x70], .dispatcher] }).agenda.head? =
        some .dispatcher := by
  refine ⟨.inr rfl, fun p hp => ?_, by decide +kernel⟩
  simp at hp; subst hp; decide

/-- A packet that runs an operation and one that fails the check. -/
theorem witness_ExactlyOneResultPerOperation :
    (∃ t, hostTurn [0x51] (polling none) = .next t) ∧ ∃ t, hostTurn [0xFF] ref = .next t := ⟨⟨_, rfl⟩, ⟨_, rfl⟩⟩

/-- An operation that faults, with its code. -/
theorem witness_FaultingOperationWritesNoState :
    (∃ t, exec .rxPoll (polling none) = .next t ∧ t.trace.getLast? = some (.res [0x07])) ∧ (0x07 : Byte) ≠ 0x00 :=
  ⟨⟨_, rfl, by decide +kernel⟩, by decide⟩

theorem witness_FaultsPerOperation :
    ∃ t, exec (.rxParse readRx16) ref = .next t ∧ t.trace.getLast? = some (.res [0x01]) :=
  ⟨_, rfl, by decide +kernel⟩

theorem witness_CodecOperationsWriteNoState :
    writesNoState .txStop = true ∧ ∃ t, exec .txStop (withAck 0x00 0x00) = .next t := ⟨rfl, ⟨_, rfl⟩⟩

end Sys2Proof.Tests
end

/-! The state's reset values, the constant configuration, the registry of the listeners and the ghost history
(10_state.md R30, R37, R38, R45). -/

namespace Sys2Proof.Machine

/-! ### Reset -/

/-- The reset state is a fixed point of the `RESET` event, so what holds after any `RESET` holds of it (R45, R300). -/
theorem resetEvent_reset : resetEvent State.reset = State.reset := rfl

/-- Settles O8, from the field lemmas of the `RESET` event. -/
theorem resetStateIsSpecTable : Obligations.ResetStateIsSpecTable := by
  unfold Obligations.ResetStateIsSpecTable
  refine ⟨?_, fun s => by simp⟩
  rw [← resetEvent_reset]
  simp

/-- `RESET` establishes the invariant whatever the state was: both flags and `DFAULT` are 0, and the table and the
history are empty. -/
theorem blockInv_resetEvent (s : State) : BlockInv (resetEvent s) where
  stopOnlyWhileRunning := by simp
  faultOnlyWhileStopped := by simp
  faultLegal := .inl rfl
  tableBounded := by simp
  eventsLegal := by simp
  onePerCommand := rfl

/-- Settles O52: the reset state is one that `RESET` leaves. -/
theorem resetMeetsInvariant : Obligations.ResetMeetsInvariant := by
  unfold Obligations.ResetMeetsInvariant
  exact resetEvent_reset ▸ blockInv_resetEvent State.reset

/-! ### The configuration -/

/-- A dispatcher turn does not touch the configuration. -/
theorem dispatcherTurn_cfg (s : State) : (dispatcherTurn s).cfg = s.cfg := by
  simp only [dispatcherTurn, dispatcherStep]
  split
  · split
    · exact observeStop_cfg s
    · rw [pollOutcome_cfg, afterRxRead_cfg]
  · rfl

/-- Settles O53, agent by agent: no turn writes `CFG`. -/
theorem configurationIsConstant : Obligations.ConfigurationIsConstant := by
  unfold Obligations.ConfigurationIsConstant
  intro s t h
  rcases step_cases h with ⟨-, rfl⟩ | ⟨turn, rest, -, hturn⟩
  · rfl
  · rcases hturn with ⟨p, i, -, -, hexec⟩ | ⟨p, e, -, -, rfl⟩ | ⟨-, rfl⟩ | ⟨-, rfl⟩
    · obtain ⟨es, r, effect⟩ := exec_effect i _ t hexec
      exact effect.cfg
    · exact raise_cfg _ _
    · exact dispatcherTurn_cfg _
    · exact resetEvent_cfg _

/-! ### The listener registry -/

/-- An entry listens to an event exactly when it was registered under one of the event's four keys (R37, R242): each
combination of the two filters picks one of the keys. -/
theorem listens_iff_listenerKey_mem (e : Listener) (ev : Event) :
    listens e ev = true ↔ listenerKey e ∈ eventKeys ev := by
  obtain ⟨cb, aen, addr, cen, cmd⟩ := e
  cases aen with
  | false => cases cen <;> simp [listens, listenerKey, eventKeys]
  | true => cases cen <;> simp [listens, listenerKey, eventKeys]

/-- Settles O48: matching is having one of the four keys, and the scan of tier `n` collects what stands under the
`n`-th key (`matching_map_eq_deliveries`). -/
theorem registryAndTableScanAgree : Obligations.RegistryAndTableScanAgree := by
  unfold Obligations.RegistryAndTableScanAgree
  exact fun lis ev => ⟨fun e => listens_iff_listenerKey_mem e ev, matching_map_eq_deliveries lis ev⟩

/-! ### The ghost history -/

/-- What O60 claims of one operation in one state: the events it adds and what it does to every other field do not
depend on the history (R38). -/
def HistoryBlind (op : State → Host.Outcome State Fault Refusal) (s : State) : Prop :=
  ∃ (es : List PortEvent) (t : State), ∀ h : List PortEvent,
    op { s with trace := h } = .next { t with trace := h ++ es }

/-- An operation whose result `r` and whose change of the state from `s` to `u` do not depend on the history. -/
theorem historyBlind_of_answer {op : State → Host.Outcome State Fault Refusal} {s : State} (u : State)
    (r : Result Bytes)
    (hop : ∀ h : List PortEvent, op { s with trace := h } = .next (answer r { u with trace := h })) :
    HistoryBlind op s :=
  ⟨[.res (resultPacket r)], u, hop⟩

/-- A send whose frame and payload do not depend on the history. -/
theorem historyBlind_of_transmit {op : State → Host.Outcome State Fault Refusal} {s : State}
    (frame : Result Bytes) (payload : AckClass × Byte → Result Bytes)
    (hop : ∀ h : List PortEvent,
      op { s with trace := h } = .next (transmit frame payload { s with trace := h })) :
    HistoryBlind op s := by
  obtain ⟨es, t, hsend⟩ := transmit_trace_ghost frame payload s
  exact ⟨es, t, fun h => by rw [hop, hsend]⟩

/-- `RX.PARSE` does not read the history (R222). -/
theorem historyBlind_rxParse (bytes : Bytes) (s : State) : HistoryBlind (execRxParse bytes) s := by
  obtain ⟨es, t, hparse⟩ := receive_trace_ghost (some bytes) s
  exact ⟨es, t, fun h => congrArg Host.Outcome.next (hparse h)⟩

/-- `RX.POLL` adds its read and then what the parse adds, neither of which depends on the history (R225). -/
theorem historyBlind_rxPoll (s : State) : HistoryBlind execRxPoll s := by
  obtain ⟨es, t, hparse⟩ := receive_trace_ghost (rxAnswer s) (afterRxRead s)
  refine ⟨.rxr (rxAnswer s) :: es, t, fun h => ?_⟩
  have hpoll : execRxPoll { s with trace := h } =
      .next (receive (rxAnswer s) { afterRxRead s with trace := h ++ [.rxr (rxAnswer s)] }) := rfl
  rw [hpoll, hparse, List.append_assoc, List.singleton_append]

/-- Whether `DSP.ADD` finds a free entry, and its index, do not depend on the history (R241). -/
theorem historyBlind_dspAdd (cb : Half) (aen cen : Bool) (a : Bytes3) (cmd : Byte) (s : State) :
    HistoryBlind (execDspAdd cb aen cen a cmd) s := by
  by_cases hfull : tableFull s = true
  · exact historyBlind_of_answer s (.error .illegalOperation)
      fun _ => congrArg Host.Outcome.next (if_pos hfull)
  · exact historyBlind_of_answer (appendListener { cb, aen, addr := a, cen, cmd } s)
      (.ok (be16Bytes (BitVec.ofNat 16 (lcount s)))) fun _ => congrArg Host.Outcome.next (if_neg hfull)

/-- `DSP.START` looks at `RUN` only (R243). -/
theorem historyBlind_dspStart (s : State) : HistoryBlind execDspStart s := by
  by_cases hrun : s.run = true
  · exact historyBlind_of_answer s (.error .illegalOperation)
      fun _ => congrArg Host.Outcome.next (if_pos hrun)
  · exact historyBlind_of_answer (startRunning s) (.ok []) fun _ => congrArg Host.Outcome.next (if_neg hrun)

/-- The callbacks of `DSP.EMIT` and their number do not depend on the history (R246). -/
theorem historyBlind_dspEmit (a : Bytes3) (opcode : Byte) (cid : Half) (tv : Bool) (dur : Dur) (s : State) :
    HistoryBlind (execDspEmit a opcode cid tv dur) s := by
  refine ⟨(matching s.lis (emittedEvent a opcode cid tv dur)).map
      (fun e => .cb e.cb (emittedEvent a opcode cid tv dur)) ++
    [.res (resultPacket (.ok (countBytes (matching s.lis (emittedEvent a opcode cid tv dur)).length)))],
    s, fun h => ?_⟩
  rw [← List.append_assoc]
  rfl

/-- No operation reads the history, said once for all 24 operations (R38): a codec operation makes its answer from its
operands and `CFG`, a send its frame from them, and the others read the rest of the state. -/
theorem historyBlind_exec (i : Instr) (s : State) : HistoryBlind (exec i) s := by
  cases i with
  | addrEnc text => exact historyBlind_of_answer s ((addrEnc text).map Bytes3.toList) fun _ => rfl
  | addrDec bytes => exact historyBlind_of_answer s (addrDec bytes) fun _ => rfl
  | addrUnp6 bytes => exact historyBlind_of_answer s ((addrUnp6 s.cfg bytes).map Bytes3.toList) fun _ => rfl
  | timeDec b => exact historyBlind_of_answer s (.ok (durBytes (timeDec b))) fun _ => rfl
  | timeEnc dur => exact historyBlind_of_answer s ((timeEnc dur.toInt).map fun b => [b]) fun _ => rfl
  | timeNorm hh mm ss ms => exact historyBlind_of_answer s ((timeNorm hh mm ss ms).map durBytes) fun _ => rfl
  | cmdOpc cid =>
    exact historyBlind_of_answer s ((opcodeFor s.cfg cid).map fun r => [r.1, classCode r.2]) fun _ => rfl
  | cmdGrp idx v =>
    exact historyBlind_of_answer s ((lookupGroup s.cfg idx.toNat v).map fun r => r.1 :: be16Bytes r.2)
      fun _ => rfl
  | cmdName opcode => exact historyBlind_of_answer s ((nameFor s.cfg opcode).map be16Bytes) fun _ => rfl
  | frmOnce text cid dur => exact historyBlind_of_answer s (buildOnce s.cfg text cid dur.toInt) fun _ => rfl
  | frmRep text cid dur iv =>
    exact historyBlind_of_answer s (buildRep s.cfg text cid dur.toInt iv.toNat) fun _ => rfl
  | txOnce text cid dur =>
    exact historyBlind_of_transmit (buildOnce s.cfg text cid dur.toInt) ackPayload fun _ => rfl
  | txRep text cid dur iv =>
    exact historyBlind_of_transmit (buildRep s.cfg text cid dur.toInt iv.toNat) ackPayload fun _ => rfl
  | txStop => exact historyBlind_of_transmit (.ok s.cfg.tagStop.toList) ackPayload fun _ => rfl
  | txVer => exact historyBlind_of_transmit (.ok s.cfg.tagVer.toList) (versionPayload s.cfg) fun _ => rfl
  | ackCls bytes =>
    exact historyBlind_of_answer s (ackClassify s.cfg (some bytes) >>= ackPayload) fun _ => rfl
  | rxParse bytes => exact historyBlind_rxParse bytes s
  | rxPoll => exact historyBlind_rxPoll s
  | rxVer =>
    refine historyBlind_of_answer s (s.rxver.elim (.error .versionNotYetKnown) fun v => .ok [v]) fun _ => ?_
    cases s.rxver <;> simp [exec, execRxVer]
  | dspAdd cb aen cen a cmd => exact historyBlind_dspAdd cb aen cen a cmd s
  | dspStart => exact historyBlind_dspStart s
  | dspStop => exact historyBlind_of_answer (requestStop s) (.ok []) fun _ => rfl
  | dspEmit a opcode cid tv dur => exact historyBlind_dspEmit a opcode cid tv dur s
  | sysStat => exact historyBlind_of_answer s (.ok (statusBytes s)) fun _ => rfl

/-- Settles O60, by `historyBlind_exec`. -/
theorem traceIsGhost : Obligations.TraceIsGhost := by
  unfold Obligations.TraceIsGhost
  exact historyBlind_exec

end Sys2Proof.Machine

/-! What a step does to the agenda's first turn, and what a host turn does with a packet that decodes
(20_memory.md R71, R72). -/

namespace Sys2Proof.Machine

/-- The agent named first on the agenda takes its turn, on the state without that turn (R72). -/
theorem step_of_agenda_cons {s : State} {t : Turn} {rest : List Turn} (h : s.agenda = t :: rest) :
    step s = takeTurn t { s with agenda := rest } := by
  simp only [step, h]

/-- A host turn whose packet passes the check is the decoded operation, on any state (R71 (a)). -/
theorem hostTurn_of_decode_ok {p : Bytes} {i : Instr} (h : decode p = .ok i) (s : State) :
    hostTurn p s = exec i s := by
  simp only [hostTurn, h]

/-- Settles O5: the step is the host's turn, and the host's turn is the decoded operation. -/
theorem stepRunsDecodedOperation : Obligations.StepRunsDecodedOperation := by
  unfold Obligations.StepRunsDecodedOperation
  intro s p i rest hagenda hdecode
  calc step s
      _ = hostTurn p { s with agenda := rest } := step_of_agenda_cons hagenda
      _ = exec i { s with agenda := rest } := hostTurn_of_decode_ok hdecode _

end Sys2Proof.Machine

/-! The operand packets (30_encoding.md R90 to R94): reading what was written, format by format; the packet check
against the decoder, format by format; and the result packet of a host turn. -/

namespace Sys2Proof

/-! ### Reading the operands that were written -/

/-- `FS` is read back as it was written (R91). -/
theorem operandsFS_counted (mk : Bytes → Instr) {s : Bytes} (hs : s.length ≤ 255) :
    operandsFS mk (counted s) = .ok (mk s) := by
  simp only [operandsFS, operandsCounted_counted_nil s hs]

/-- `FD` is read back as it was written (R91). -/
theorem operandsFD_be32Bytes (mk : Dur → Instr) (dur : Dur) : operandsFD mk (be32Bytes dur) = .ok (mk dur) := by
  simp only [operandsFD, be32Bytes, be32_be32Bytes]

/-- `FW` is read back as it was written (R91). -/
theorem operandsFW_written (mk : Byte → Byte → Byte → Half → Instr) (hh mm ss : Byte) (ms : Half) :
    operandsFW mk ([hh, mm, ss] ++ be16Bytes ms) = .ok (mk hh mm ss ms) := by
  simp only [operandsFW, be16Bytes, List.cons_append, List.nil_append, be16_be16Bytes]

/-- `FC` is read back as it was written (R91). -/
theorem operandsFC_be16Bytes (mk : Half → Instr) (cid : Half) : operandsFC mk (be16Bytes cid) = .ok (mk cid) := by
  simp only [operandsFC, be16Bytes, be16_be16Bytes]

/-- `FG` is read back as it was written (R91). -/
theorem operandsFG_written (mk : Byte → Bool → Instr) (idx : Byte) (v : Bool) :
    operandsFG mk [idx, flagByte v] = .ok (mk idx v) := by
  have hzero : (flagByte v).toNat < 2 := Nat.lt_succ_of_le (flagByte_toNat_le v)
  simp [operandsFG, hzero, flagByte_getElem]

/-- `FT1` is read back as it was written (R91). -/
theorem operandsFT1_written (mk : Bytes → Half → Dur → Instr) {text : Bytes} (ht : text.length ≤ 255) (cid : Half)
    (dur : Dur) :
    operandsFT1 mk (counted text ++ (be16Bytes cid ++ be32Bytes dur)) = .ok (mk text cid dur) := by
  have hread := operandsCounted_counted 6 text (be16Bytes cid ++ be32Bytes dur) ht rfl
  rw [operandsFT1, hread]
  simp only [be16Bytes, be32Bytes, List.cons_append, List.nil_append, be16_be16Bytes, be32_be32Bytes]

/-- `FT2` is read back as it was written (R91). -/
theorem operandsFT2_written (mk : Bytes → Half → Dur → Half → Instr) {text : Bytes} (ht : text.length ≤ 255)
    (cid : Half) (dur : Dur) (iv : Half) :
    operandsFT2 mk (counted text ++ (be16Bytes cid ++ be32Bytes dur ++ be16Bytes iv)) =
      .ok (mk text cid dur iv) := by
  have hread := operandsCounted_counted 8 text (be16Bytes cid ++ be32Bytes dur ++ be16Bytes iv) ht rfl
  rw [operandsFT2, hread]
  simp only [be16Bytes, be32Bytes, List.cons_append, List.nil_append, be16_be16Bytes, be32_be32Bytes]

/-- `FL` is read back as it was written (R91). -/
theorem operandsFL_written (mk : Half → Bool → Bool → Bytes3 → Byte → Instr) (cb : Half) (aen cen : Bool)
    (a : Bytes3) (cmd : Byte) :
    operandsFL mk (be16Bytes cb ++ [filterByte aen cen] ++ a.toList ++ [cmd]) = .ok (mk cb aen cen a cmd) := by
  simp [operandsFL, be16Bytes, Bytes3.toList, filterByte_toNat_lt, filterByte_getElem_zero,
    filterByte_getElem_one, be16_be16Bytes]

/-- `FE` is read back as it was written (R91). -/
theorem operandsFE_written (mk : Bytes3 → Byte → Half → Bool → Dur → Instr) (a : Bytes3) (opcode : Byte)
    (cid : Half) (tv : Bool) (dur : Dur) :
    operandsFE mk (a.toList ++ [opcode] ++ be16Bytes cid ++ [flagByte tv] ++ be32Bytes dur) =
      .ok (mk a opcode cid tv dur) := by
  have hzero : (flagByte tv).toNat < 2 := Nat.lt_succ_of_le (flagByte_toNat_le tv)
  simp [operandsFE, be16Bytes, be32Bytes, Bytes3.toList, hzero, flagByte_getElem, be16_be16Bytes,
    be32_be32Bytes]

/-- The packet of a well-formed operation decodes to it: the code selects the reader of the format the operands were
written in (R91, R92). -/
theorem decode_encode (i : Instr) (hwf : i.WellFormed) : decode (encode i) = .ok i := by
  cases i with
  | addrEnc text => exact operandsFS_counted .addrEnc (of_decide_eq_true hwf)
  | addrDec bytes => exact operandsFS_counted .addrDec (of_decide_eq_true hwf)
  | addrUnp6 bytes => exact operandsFS_counted .addrUnp6 (of_decide_eq_true hwf)
  | timeDec b => rfl
  | timeEnc dur => exact operandsFD_be32Bytes .timeEnc dur
  | timeNorm hh mm ss ms => exact operandsFW_written .timeNorm hh mm ss ms
  | cmdOpc cid => exact operandsFC_be16Bytes .cmdOpc cid
  | cmdGrp idx v => exact operandsFG_written .cmdGrp idx v
  | cmdName opcode => rfl
  | frmOnce text cid dur => exact operandsFT1_written .frmOnce (of_decide_eq_true hwf) cid dur
  | frmRep text cid dur iv => exact operandsFT2_written .frmRep (of_decide_eq_true hwf) cid dur iv
  | txOnce text cid dur => exact operandsFT1_written .txOnce (of_decide_eq_true hwf) cid dur
  | txRep text cid dur iv => exact operandsFT2_written .txRep (of_decide_eq_true hwf) cid dur iv
  | txStop => rfl
  | txVer => rfl
  | ackCls bytes => exact operandsFS_counted .ackCls (of_decide_eq_true hwf)
  | rxParse bytes => exact operandsFS_counted .rxParse (of_decide_eq_true hwf)
  | rxPoll => rfl
  | rxVer => rfl
  | dspAdd cb aen cen a cmd => exact operandsFL_written .dspAdd cb aen cen a cmd
  | dspStart => rfl
  | dspStop => rfl
  | dspEmit a opcode cid tv dur => exact operandsFE_written .dspEmit a opcode cid tv dur
  | sysStat => rfl

/-- Settles O1, by `decode_encode`. -/
theorem decodeOfEncodeIsIdentity : Obligations.DecodeOfEncodeIsIdentity := by
  unfold Obligations.DecodeOfEncodeIsIdentity
  exact decode_encode

/-- Settles O4: the decoder evaluated on the seven packets. -/
theorem specPacketsDecode : Obligations.SpecPacketsDecode := by
  unfold Obligations.SpecPacketsDecode
  decide

end Sys2Proof

namespace Sys2Proof.Machine

/-! ### The packet check, format by format -/

section
variable {code : Byte} {f : Format} {ops : Bytes}

/-- A format with neither a length byte nor must-be-zero bits asks for its length only (R91, R93). -/
theorem packetLegal_fixed (hcode : formatOf code = some f) (hf : f ∈ [Format.F0, .FB, .FD, .FW, .FC]) :
    packetLegal (code :: ops) = true ↔ ops.length + 1 = f.length 0 := by
  fin_cases hf <;> simp [packetLegal, hcode, Format.length]

/-- A format with a length byte asks for that byte and for as many bytes as it says (R91, R93). -/
theorem packetLegal_counted (hcode : formatOf code = some f) (hf : f ∈ [Format.FS, .FT1, .FT2]) :
    packetLegal (code :: ops) = true ↔
      1 ≤ ops.length ∧ ops.length + 1 = f.length (ops.getD 0 0).toNat := by
  fin_cases hf <;> simp [packetLegal, hcode, Format.length, byteVal]

/-- `FG` asks for its length and for bits 7:1 of `v` to be 0 (R91, R93). -/
theorem packetLegal_FG (hcode : formatOf code = some .FG) :
    packetLegal (code :: ops) = true ↔ ops.length = 2 ∧ (ops.getD 1 0).toNat < 2 := by
  simp [packetLegal, hcode, Format.length, byteVal, Nat.div_eq_zero_iff]

/-- `FL` asks for its length and for bits 7:2 of `fl` to be 0 (R91, R93). -/
theorem packetLegal_FL (hcode : formatOf code = some .FL) :
    packetLegal (code :: ops) = true ↔ ops.length = 7 ∧ (ops.getD 2 0).toNat < 4 := by
  simp [packetLegal, hcode, Format.length, byteVal, Nat.div_eq_zero_iff]

/-- `FE` asks for its length and for bits 7:1 of `tv` to be 0 (R91, R93). -/
theorem packetLegal_FE (hcode : formatOf code = some .FE) :
    packetLegal (code :: ops) = true ↔ ops.length = 11 ∧ (ops.getD 6 0).toNat < 2 := by
  simp [packetLegal, hcode, Format.length, byteVal, Nat.div_eq_zero_iff]

end

/-! ### The decoder against the packet check -/

/-- The answer `r` is the right one for the packet `p`: an operation only if `p` is its packet and legal, and some
operation if `p` is legal. -/
structure ExactReading (p : Bytes) (r : Except Reject Instr) : Prop where
  sound : ∀ i, r = .ok i → (i.WellFormed ∧ encode i = p) ∧ packetLegal p = true
  complete : packetLegal p = true → ∃ i, r = .ok i

section
variable {code : Byte} {ops : Bytes}

/-- An `F0` packet is read exactly: nothing may follow the code (R91, R93). -/
theorem exactReading_F0 (j : Instr) (hcode : formatOf code = some .F0) (hwf : j.WellFormed)
    (henc : encode j = [code]) : ExactReading (code :: ops) (operandsF0 j ops) where
  sound i h := by
    obtain ⟨rfl, rfl⟩ := operandsF0_ok h
    exact ⟨⟨hwf, henc⟩, (packetLegal_fixed hcode (by simp)).2 rfl⟩
  complete h := by
    have hlen := (packetLegal_fixed hcode (by simp)).1 h
    obtain rfl : ops = [] := List.eq_nil_of_length_eq_zero (Nat.succ.inj hlen)
    exact ⟨_, rfl⟩

/-- An `FS` packet is read exactly: the counted string (R91, R93). -/
theorem exactReading_FS (mk : Bytes → Instr) (hcode : formatOf code = some .FS)
    (hwf : ∀ s, (mk s).wellFormed = countable s) (henc : ∀ s, encode (mk s) = code :: counted s) :
    ExactReading (code :: ops) (operandsFS mk ops) where
  sound i h := by
    obtain ⟨s, hs, rfl, rfl⟩ := operandsFS_ok h
    refine ⟨⟨(hwf s).trans (decide_eq_true hs), henc s⟩, (packetLegal_counted hcode (by simp)).2 ?_⟩
    simp [counted, Format.length]; omega
  complete h := by
    obtain ⟨hone, hlen⟩ := (packetLegal_counted hcode (by simp)).1 h
    exact operandsFS_total hone (by simp only [Format.length] at hlen; omega)

/-- An `FB` packet is read exactly: one byte (R91, R93). -/
theorem exactReading_FB (mk : Byte → Instr) (hcode : formatOf code = some .FB) (hwf : ∀ b, (mk b).WellFormed)
    (henc : ∀ b, encode (mk b) = [code, b]) : ExactReading (code :: ops) (operandsFB mk ops) where
  sound i h := by
    obtain ⟨b, rfl, rfl⟩ := operandsFB_ok h
    exact ⟨⟨hwf b, henc b⟩, (packetLegal_fixed hcode (by simp)).2 rfl⟩
  complete h := by
    have hlen := (packetLegal_fixed hcode (by simp)).1 h
    obtain ⟨b, rfl⟩ := List.length_eq_one_iff.1 (Nat.succ.inj hlen)
    exact ⟨_, rfl⟩

/-- An `FD` packet is read exactly: the four bytes of a duration (R91, R93). -/
theorem exactReading_FD (mk : Dur → Instr) (hcode : formatOf code = some .FD) (hwf : ∀ d, (mk d).WellFormed)
    (henc : ∀ d, encode (mk d) = code :: be32Bytes d) : ExactReading (code :: ops) (operandsFD mk ops) where
  sound i h := by
    obtain ⟨d, rfl, rfl⟩ := operandsFD_ok h
    exact ⟨⟨hwf d, henc d⟩, (packetLegal_fixed hcode (by simp)).2 rfl⟩
  complete h := by
    have hlen := (packetLegal_fixed hcode (by simp)).1 h
    obtain ⟨d3, d2, d1, d0, rfl⟩ := exists_of_length_four (Nat.succ.inj hlen)
    exact ⟨_, rfl⟩

/-- An `FW` packet is read exactly: three bytes and a 16-bit field (R91, R93). -/
theorem exactReading_FW (mk : Byte → Byte → Byte → Half → Instr) (hcode : formatOf code = some .FW)
    (hwf : ∀ hh mm ss ms, (mk hh mm ss ms).WellFormed)
    (henc : ∀ hh mm ss ms, encode (mk hh mm ss ms) = code :: ([hh, mm, ss] ++ be16Bytes ms)) :
    ExactReading (code :: ops) (operandsFW mk ops) where
  sound i h := by
    obtain ⟨hh, mm, ss, ms, rfl, rfl⟩ := operandsFW_ok h
    exact ⟨⟨hwf .., henc ..⟩, (packetLegal_fixed hcode (by simp)).2 rfl⟩
  complete h := by
    have hlen := (packetLegal_fixed hcode (by simp)).1 h
    obtain ⟨hh, mm, ss, m1, m0, rfl⟩ := exists_of_length_five (Nat.succ.inj hlen)
    exact ⟨_, rfl⟩

/-- An `FC` packet is read exactly: a 16-bit field (R91, R93). -/
theorem exactReading_FC (mk : Half → Instr) (hcode : formatOf code = some .FC) (hwf : ∀ c, (mk c).WellFormed)
    (henc : ∀ c, encode (mk c) = code :: be16Bytes c) : ExactReading (code :: ops) (operandsFC mk ops) where
  sound i h := by
    obtain ⟨c, rfl, rfl⟩ := operandsFC_ok h
    exact ⟨⟨hwf c, henc c⟩, (packetLegal_fixed hcode (by simp)).2 rfl⟩
  complete h := by
    have hlen := (packetLegal_fixed hcode (by simp)).1 h
    obtain ⟨c1, c0, rfl⟩ := exists_of_length_two (Nat.succ.inj hlen)
    exact ⟨_, rfl⟩

/-- An `FG` packet is read exactly: the index and the one-bit field `v` (R91, R93). -/
theorem exactReading_FG (mk : Byte → Bool → Instr) (hcode : formatOf code = some .FG)
    (hwf : ∀ idx v, (mk idx v).WellFormed) (henc : ∀ idx v, encode (mk idx v) = [code, idx, flagByte v]) :
    ExactReading (code :: ops) (operandsFG mk ops) where
  sound i h := by
    obtain ⟨idx, v, rfl, rfl⟩ := operandsFG_ok h
    exact ⟨⟨hwf .., henc ..⟩, (packetLegal_FG hcode).2 ⟨rfl, Nat.lt_succ_of_le (flagByte_toNat_le v)⟩⟩
  complete h := by
    obtain ⟨hlen, hzero⟩ := (packetLegal_FG hcode).1 h
    obtain ⟨idx, v, rfl⟩ := exists_of_length_two hlen
    exact ⟨_, if_pos hzero⟩

/-- An `FT1` packet is read exactly: the counted text, the command and the duration (R91, R93). -/
theorem exactReading_FT1 (mk : Bytes → Half → Dur → Instr) (hcode : formatOf code = some .FT1)
    (hwf : ∀ text cid dur, (mk text cid dur).wellFormed = countable text)
    (henc : ∀ text cid dur, encode (mk text cid dur) = code :: (counted text ++ (be16Bytes cid ++ be32Bytes dur))) :
    ExactReading (code :: ops) (operandsFT1 mk ops) where
  sound i h := by
    obtain ⟨text, cid, dur, ht, rfl, rfl⟩ := operandsFT1_ok h
    refine ⟨⟨(hwf ..).trans (decide_eq_true ht), henc ..⟩, (packetLegal_counted hcode (by simp)).2 ?_⟩
    simp [counted, be16Bytes, be32Bytes, Format.length]; omega
  complete h := by
    obtain ⟨hone, hlen⟩ := (packetLegal_counted hcode (by simp)).1 h
    exact operandsFT1_total hone (by simp only [Format.length] at hlen; omega)

/-- An `FT2` packet is read exactly: the counted text, the command, the duration and the interval (R91, R93). -/
theorem exactReading_FT2 (mk : Bytes → Half → Dur → Half → Instr) (hcode : formatOf code = some .FT2)
    (hwf : ∀ text cid dur iv, (mk text cid dur iv).wellFormed = countable text)
    (henc : ∀ text cid dur iv, encode (mk text cid dur iv) =
      code :: (counted text ++ (be16Bytes cid ++ be32Bytes dur ++ be16Bytes iv))) :
    ExactReading (code :: ops) (operandsFT2 mk ops) where
  sound i h := by
    obtain ⟨text, cid, dur, iv, ht, rfl, rfl⟩ := operandsFT2_ok h
    refine ⟨⟨(hwf ..).trans (decide_eq_true ht), henc ..⟩, (packetLegal_counted hcode (by simp)).2 ?_⟩
    simp [counted, be16Bytes, be32Bytes, Format.length]; omega
  complete h := by
    obtain ⟨hone, hlen⟩ := (packetLegal_counted hcode (by simp)).1 h
    exact operandsFT2_total hone (by simp only [Format.length] at hlen; omega)

/-- An `FL` packet is read exactly: the callback, the filter byte `fl` and the two filters (R91, R93). -/
theorem exactReading_FL (mk : Half → Bool → Bool → Bytes3 → Byte → Instr) (hcode : formatOf code = some .FL)
    (hwf : ∀ cb aen cen a cmd, (mk cb aen cen a cmd).WellFormed)
    (henc : ∀ cb aen cen a cmd, encode (mk cb aen cen a cmd) =
      code :: (be16Bytes cb ++ [filterByte aen cen] ++ a.toList ++ [cmd])) :
    ExactReading (code :: ops) (operandsFL mk ops) where
  sound i h := by
    obtain ⟨cb, aen, cen, a, cmd, rfl, rfl⟩ := operandsFL_ok h
    exact ⟨⟨hwf .., henc ..⟩, (packetLegal_FL hcode).2 ⟨rfl, filterByte_toNat_lt aen cen⟩⟩
  complete h := by
    obtain ⟨hlen, hzero⟩ := (packetLegal_FL hcode).1 h
    obtain ⟨c1, c0, fl, a0, a1, a2, cmd, rfl⟩ := exists_of_length_seven hlen
    exact ⟨_, if_pos hzero⟩

/-- An `FE` packet is read exactly: the fields of an event, with the one-bit field `tv` (R91, R93). -/
theorem exactReading_FE (mk : Bytes3 → Byte → Half → Bool → Dur → Instr) (hcode : formatOf code = some .FE)
    (hwf : ∀ a opcode cid tv dur, (mk a opcode cid tv dur).WellFormed)
    (henc : ∀ a opcode cid tv dur, encode (mk a opcode cid tv dur) =
      code :: (a.toList ++ [opcode] ++ be16Bytes cid ++ [flagByte tv] ++ be32Bytes dur)) :
    ExactReading (code :: ops) (operandsFE mk ops) where
  sound i h := by
    obtain ⟨a, opcode, cid, tv, dur, rfl, rfl⟩ := operandsFE_ok h
    exact ⟨⟨hwf .., henc ..⟩, (packetLegal_FE hcode).2 ⟨rfl, Nat.lt_succ_of_le (flagByte_toNat_le tv)⟩⟩
  complete h := by
    obtain ⟨hlen, hzero⟩ := (packetLegal_FE hcode).1 h
    obtain ⟨a0, a1, a2, opcode, c1, c0, tv, d3, d2, d1, d0, rfl⟩ := exists_of_length_eleven hlen
    exact ⟨_, if_pos hzero⟩

/-- A code without a format is rightly refused (R93, R99). -/
theorem exactReading_of_formatOf_none (hcode : formatOf code = none) (e : Reject) :
    ExactReading (code :: ops) (.error e) where
  sound _ h := nomatch h
  complete h := by simp [packetLegal, hcode] at h

end

/-- The decoder's answer is the right one for every packet, said once for all codes: each row of R92 reads its
operands in the format that `formatOf` gives its code. -/
theorem decode_exactReading (p : Bytes) : ExactReading p (decode p) := by
  rcases p with _ | ⟨code, ops⟩
  · exact ⟨fun _ h => (nomatch h), fun h => (nomatch h)⟩
  simp only [decode]
  split
  -- the last arm of `decode`: a code that stands in no row of R92
  case h_25 => exact exactReading_of_formatOf_none (by simp only [formatOf]) _
  all_goals
    rename_i hcode
    obtain rfl := eq_ofNat_of_toNat_eq code _ hcode
  · exact exactReading_FS .addrEnc rfl (fun _ => rfl) fun _ => rfl
  · exact exactReading_FS .addrDec rfl (fun _ => rfl) fun _ => rfl
  · exact exactReading_FS .addrUnp6 rfl (fun _ => rfl) fun _ => rfl
  · exact exactReading_FB .timeDec rfl (fun _ => rfl) fun _ => rfl
  · exact exactReading_FD .timeEnc rfl (fun _ => rfl) fun _ => rfl
  · exact exactReading_FW .timeNorm rfl (fun _ _ _ _ => rfl) fun _ _ _ _ => rfl
  · exact exactReading_FC .cmdOpc rfl (fun _ => rfl) fun _ => rfl
  · exact exactReading_FG .cmdGrp rfl (fun _ _ => rfl) fun _ _ => rfl
  · exact exactReading_FB .cmdName rfl (fun _ => rfl) fun _ => rfl
  · exact exactReading_FT1 .frmOnce rfl (fun _ _ _ => rfl) fun _ _ _ => rfl
  · exact exactReading_FT2 .frmRep rfl (fun _ _ _ _ => rfl) fun _ _ _ _ => rfl
  · exact exactReading_FT1 .txOnce rfl (fun _ _ _ => rfl) fun _ _ _ => rfl
  · exact exactReading_FT2 .txRep rfl (fun _ _ _ _ => rfl) fun _ _ _ _ => rfl
  · exact exactReading_F0 .txStop rfl rfl rfl
  · exact exactReading_F0 .txVer rfl rfl rfl
  · exact exactReading_FS .ackCls rfl (fun _ => rfl) fun _ => rfl
  · exact exactReading_FS .rxParse rfl (fun _ => rfl) fun _ => rfl
  · exact exactReading_F0 .rxPoll rfl rfl rfl
  · exact exactReading_F0 .rxVer rfl rfl rfl
  · exact exactReading_FL .dspAdd rfl (fun _ _ _ _ _ => rfl) fun _ _ _ _ _ => rfl
  · exact exactReading_F0 .dspStart rfl rfl rfl
  · exact exactReading_F0 .dspStop rfl rfl rfl
  · exact exactReading_FE .dspEmit rfl (fun _ _ _ _ _ => rfl) fun _ _ _ _ _ => rfl
  · exact exactReading_F0 .sysStat rfl rfl rfl

/-- Settles O2, by the soundness half of `decode_exactReading`. -/
theorem encodeOfDecodeIsIdentity : Obligations.EncodeOfDecodeIsIdentity := by
  unfold Obligations.EncodeOfDecodeIsIdentity
  exact fun p i h => ((decode_exactReading p).sound i h).1

/-! ### What a host turn answers -/

/-- A host turn whose packet fails the check is the one fault result, on any state (R93). -/
theorem hostTurn_of_decode_error {p : Bytes} {e : Reject} (h : decode p = .error e) (s : State) :
    hostTurn p s = .next (answered s [0x0C]) := by
  simp only [hostTurn, h]
  rfl

/-- Settles O3: by `decode_exactReading` the decoder takes exactly the legal packets, and the host turn follows what
it answers. -/
theorem packetCheckIsExact : Obligations.PacketCheckIsExact := by
  unfold Obligations.PacketCheckIsExact
  intro p
  constructor
  · intro hlegal
    obtain ⟨i, hdecode⟩ := (decode_exactReading p).complete hlegal
    exact ⟨i, hdecode, hostTurn_of_decode_ok hdecode⟩
  · intro hillegal
    rcases hdecode : decode p with e | i
    · exact hostTurn_of_decode_error hdecode
    · have hlegal := ((decode_exactReading p).sound i hdecode).2
      simp [hillegal] at hlegal

/-- Settles O56: an operation ends with its one result (`exec_effect`), and a packet that fails the check has the
fault result alone. -/
theorem exactlyOneResultPerOperation : Obligations.ExactlyOneResultPerOperation := by
  unfold Obligations.ExactlyOneResultPerOperation
  intro s t p h
  rcases hdecode : decode p with e | i
  · rw [hostTurn_of_decode_error hdecode] at h
    obtain rfl := Host.Outcome.next.inj h
    exact ⟨[], [0x0C], by simp [answered], rfl, by simp⟩
  · rw [hostTurn_of_decode_ok hdecode] at h
    obtain ⟨es, r, effect⟩ := exec_effect i s t h
    exact ⟨es, resultPacket r, effect.trace, resultLegal_of_execEffect effect, effect.noRes⟩

end Sys2Proof.Machine

/-! The address codec: `ADDR.ENC`, `ADDR.DEC` and `ADDR.UNP6`, the round-trip laws and the two address widths
(40_address_codec.md R132 to R137). -/

namespace Sys2Proof.Machine

/-! ### The text form -/

/-- A valid text is packed (R132). -/
theorem addrEnc_of_validText {t : Bytes} (hvalid : ValidText t) : addrEnc t = .ok (packedText t) :=
  (addrEnc_ok_iff t _).2 ⟨hvalid, rfl⟩

/-- Any other text is `InvalidAddress` (R132). -/
theorem addrEnc_of_not_validText {t : Bytes} (hinvalid : ¬ ValidText t) : addrEnc t = .error .invalidAddress := by
  rcases henc : addrEnc t with f | a
  · rw [addrEnc_error henc]
  · exact absurd ((addrEnc_ok_iff t a).1 henc).1 hinvalid

/-- `ADDR.ENC` adds one result, what the encoder answers, and does nothing else (R133). -/
theorem exec_addrEnc (t : Bytes) (s : State) :
    exec (.addrEnc t) s = .next (answer ((addrEnc t).map Bytes3.toList) s) := rfl

/-- Settles O10: the encoder's two answers, each laid out as a result packet. -/
theorem addrEncAnswer : Obligations.AddrEncAnswer := by
  unfold Obligations.AddrEncAnswer
  refine fun s t => ⟨fun hvalid => ?_, fun hinvalid => ?_⟩
  · rw [exec_addrEnc, addrEnc_of_validText hvalid]
    rfl
  · rw [exec_addrEnc, addrEnc_of_not_validText hinvalid]
    rfl

/-- The text of a packed address by the closed form of its groups (R101, R134). -/
theorem addrText_eq_groupChars (a : Bytes3) :
    addrText a = groupChars a.b0 ++ [0x2D] ++ groupChars a.b1 ++ [0x2D] ++ groupChars a.b2 := by
  simp only [addrText, groupText_eq, hyphen]

/-- A byte string that is not three bytes wide is `InvalidAddress` (R134). -/
theorem addrDec_of_length_ne {s : Bytes} (hlen : s.length ≠ 3) : addrDec s = .error .invalidAddress := by
  simp only [addrDec]
  split
  · exact absurd rfl hlen
  · rfl

/-- `ADDR.DEC` adds one result, what the decoder answers, and does nothing else (R134). -/
theorem exec_addrDec (bytes : Bytes) (s : State) : exec (.addrDec bytes) s = .next (answer (addrDec bytes) s) := rfl

/-- Settles O11: three bytes are decoded to the closed form of their text, any other width is the one fault. -/
theorem addrDecAnswer : Obligations.AddrDecAnswer := by
  unfold Obligations.AddrDecAnswer
  refine fun s => ⟨fun b0 b1 b2 => ?_, fun bytes hlen => ?_⟩
  · rw [exec_addrDec, ← addrText_eq_groupChars ⟨b0, b1, b2⟩]
    rfl
  · rw [exec_addrDec, addrDec_of_length_ne hlen]
    rfl

/-! ### The round-trip laws -/

/-- A good group of the text is the text of its packed byte (R131, R135). -/
theorem groupText_of_textGroup {g : Bytes} {b : Byte} (h : textGroup g = .ok b) : groupText b = g := by
  obtain ⟨c0, c1, c2, c3, rfl, h0, h1, h2, h3, rfl⟩ := textGroup_ok h
  exact groupText_groupEnc h0 h1 h2 h3

/-- A text that is encoded is three groups with a hyphen between them, packed one by one (R132). -/
theorem groups_of_addrEnc {t : Bytes} {a : Bytes3} (h : addrEnc t = .ok a) :
    ∃ g0 g1 g2, t = g0 ++ [hyphen] ++ g1 ++ [hyphen] ++ g2 ∧
      textGroup g0 = .ok a.b0 ∧ textGroup g1 = .ok a.b1 ∧ textGroup g2 = .ok a.b2 := by
  simp only [addrEnc] at h
  split at h
  next g0 g1 g2 hsplit =>
    split at h
    next a0 a1 a2 h0 h1 h2 =>
      obtain rfl := Except.ok.inj h
      refine ⟨g0, g1, g2, ?_, h0, h1, h2⟩
      rw [← splitHyphen_join t, hsplit]
      simp [List.intercalate]
    next => exact nomatch h
  next => exact nomatch h

/-- Decoding inverts encoding (R135). -/
theorem addrText_of_addrEnc {t : Bytes} {a : Bytes3} (h : addrEnc t = .ok a) : addrText a = t := by
  obtain ⟨g0, g1, g2, rfl, h0, h1, h2⟩ := groups_of_addrEnc h
  simp only [addrText, groupText_of_textGroup h0, groupText_of_textGroup h1, groupText_of_textGroup h2]

/-- A decoded group has no hyphen, so splitting the decoded text finds the groups again (R134). -/
theorem hyphen_notMem_groupText (b : Byte) : hyphen ∉ groupText b :=
  fun hmem => not_hyphen_of_digit (groupText_isDigitChar b _ hmem) rfl

/-- The decoded text splits into its three groups (R132, R134). -/
theorem splitHyphen_addrText (a : Bytes3) :
    splitHyphen (addrText a) = [groupText a.b0, groupText a.b1, groupText a.b2] := by
  simp only [addrText, List.append_assoc, List.cons_append, List.nil_append]
  rw [splitHyphen_hyphen _ (hyphen_notMem_groupText a.b0), splitHyphen_hyphen _ (hyphen_notMem_groupText a.b1),
    splitHyphen_last _ (hyphen_notMem_groupText a.b2)]

/-- Encoding inverts decoding, and so does not fault on a decoded text (R135). -/
theorem addrEnc_addrText (a : Bytes3) : addrEnc (addrText a) = .ok a := by
  simp only [addrEnc, splitHyphen_addrText, textGroup_groupText]

/-- Settles O12: what the decoder answers on three bytes is `addrText`, which inverts the encoder on either side. -/
theorem addressRoundTrips : Obligations.AddressRoundTrips := by
  unfold Obligations.AddressRoundTrips
  exact ⟨fun t a henc => congrArg Except.ok (addrText_of_addrEnc henc),
    fun a => ⟨addrText a, rfl, addrEnc_addrText a⟩⟩

/-! ### The receive-side width -/

/-- A byte string that is not six bytes wide is `InvalidAddress`, whatever its bytes read as (R136). -/
theorem addrUnp6_of_length_ne (c : Cfg) {s : Bytes} (hlen : s.length ≠ 6) :
    addrUnp6 c s = .error .invalidAddress := by
  simp only [addrUnp6]
  split
  · exact absurd rfl hlen
  · rfl

/-- Six bytes of which one has no decimal reading are `InvalidResponse`, whatever the digits of the others (R136). -/
theorem addrUnp6_of_unreadable {c : Cfg} {s : Bytes} (hlen : s.length = 6) (hnone : ∃ b ∈ s, digits2 c b = none) :
    addrUnp6 c s = .error .invalidResponse := by
  obtain ⟨b0, b1, b2, b3, b4, b5, rfl⟩ := exists_of_length_six hlen
  simp only [addrUnp6]
  split
  next h0 h1 h2 h3 h4 h5 => simp [h0, h1, h2, h3, h4, h5] at hnone
  next => rfl

/-- Six bytes that all have a decimal reading are unpacked, or are `InvalidAddress` for a digit outside 1..4
(R136). -/
theorem addrUnp6_of_readings {c : Cfg} {s : Bytes} {qs : List (Fin 10 × Fin 10)} (hlen : s.length = 6)
    (hread : s.map (digits2 c) = qs.map some) :
    (¬ AddressDigits qs 12 → addrUnp6 c s = .error .invalidAddress) ∧
    (AddressDigits qs 12 →
      addrUnp6 c s = .ok ⟨packedDigits qs 0, packedDigits qs 4, packedDigits qs 8⟩) := by
  obtain ⟨b0, b1, b2, b3, b4, b5, p0, p1, p2, p3, p4, p5, rfl, rfl, h0, h1, h2, h3, h4, h5⟩ :=
    readings_of_six hlen hread
  simp only [addrUnp6, h0, h1, h2, h3, h4, h5]
  exact unpackPairs_spec p0 p1 p2 p3 p4 p5 []

/-- `ADDR.UNP6` adds one result, what the unpacking answers, and does nothing else (R136). -/
theorem exec_addrUnp6 (bytes : Bytes) (s : State) :
    exec (.addrUnp6 bytes) s = .next (answer ((addrUnp6 s.cfg bytes).map Bytes3.toList) s) := rfl

/-- Settles O13: the unpacking's answer for each outcome of its three checks, laid out as a result packet. -/
theorem addrUnp6Answer : Obligations.AddrUnp6Answer := by
  unfold Obligations.AddrUnp6Answer
  refine fun s bytes => ⟨fun hlen => ?_, fun hlen hnone => ?_, fun qs hlen hread => ?_⟩
  · rw [exec_addrUnp6, addrUnp6_of_length_ne s.cfg hlen]
    rfl
  · rw [exec_addrUnp6, addrUnp6_of_unreadable hlen hnone]
    rfl
  · obtain ⟨hbad, hgood⟩ := addrUnp6_of_readings hlen hread
    refine ⟨fun hdigits => ?_, fun hdigits => ?_⟩
    · rw [exec_addrUnp6, hbad hdigits]
      rfl
    · rw [exec_addrUnp6, hgood hdigits]
      rfl

/-! ### The two address widths -/

/-- The readings `qs` are the digit pairs of the text `t`: digit `j` of group `g` is the value of character `j` of that
group, a group of the text being followed by its hyphen (R100, R137). -/
abbrev DigitPairsOf (qs : List (Fin 10 × Fin 10)) (t : Bytes) : Prop :=
  ∀ g < 3, ∀ j < 4, digitAt qs (4 * g + j) = byteVal t (5 * g + j) - 0x30

/-- The digit pairs of a valid text are address digits (R137). -/
theorem addressDigits_of_digitPairsOf {qs : List (Fin 10 × Fin 10)} {t : Bytes} (hvalid : ValidText t)
    (hpairs : DigitPairsOf qs t) : AddressDigits qs 12 := by
  obtain ⟨-, -, -, hchars⟩ := hvalid
  intro k hk
  have hchar := hchars (5 * (k / 4) + k % 4) (by omega) (by omega) (by omega)
  have hdigit := hpairs (k / 4) (by omega) (k % 4) (by omega)
  rw [Nat.div_add_mod] at hdigit
  omega

/-- A group is packed alike from its digit pairs and from its characters (R101, R137). -/
theorem packedDigits_eq_packedGroup {qs : List (Fin 10 × Fin 10)} {t : Bytes} (hpairs : DigitPairsOf qs t) {g : Nat}
    (hg : g < 3) : packedDigits qs (4 * g) = packedGroup t (5 * g) := by
  have h0 := hpairs g hg 0 (by omega)
  have h1 := hpairs g hg 1 (by omega)
  have h2 := hpairs g hg 2 (by omega)
  have h3 := hpairs g hg 3 (by omega)
  simp only [Nat.add_zero] at h0
  simp only [packedDigits, packedGroup, h0, h1, h2, h3, Nat.sub_sub, Nat.reduceAdd]

/-- Settles O14: both widths answer the packed form of the text, group by group. -/
theorem receiveWidthAgreesWithText : Obligations.ReceiveWidthAgreesWithText := by
  unfold Obligations.ReceiveWidthAgreesWithText
  intro c t bytes qs hvalid hlen hread hpairs
  have hunpack := (addrUnp6_of_readings hlen hread).2 (addressDigits_of_digitPairsOf hvalid hpairs)
  have hpacked : packedText t = ⟨packedDigits qs 0, packedDigits qs 4, packedDigits qs 8⟩ := by
    rw [packedText, ← packedDigits_eq_packedGroup hpairs (g := 0) (by omega),
      ← packedDigits_eq_packedGroup hpairs (g := 1) (by omega),
      ← packedDigits_eq_packedGroup hpairs (g := 2) (by omega)]
  rw [hunpack, addrEnc_of_validText hvalid, hpacked]
  exact ⟨rfl, _, rfl⟩

/-! ### Operations that write no state -/

/-- An operation that only adds port events changes the history only (R38). -/
theorem emit_same_state (es : List PortEvent) (s : State) :
    emit es s = { s with
      trace := (emit es s).trace
      txAnswers := (emit es s).txAnswers
      txReads := (emit es s).txReads } := rfl

/-- Settles O59, by the kind of operation: the five that write state are outside the premise, a send changes the
transmit adapter's answers, `DSP.EMIT` adds its callbacks and its result, and every other operation its result. -/
theorem codecOperationsWriteNoState : Obligations.CodecOperationsWriteNoState := by
  unfold Obligations.CodecOperationsWriteNoState
  intro s t i hno h
  cases i <;> obtain rfl := Host.Outcome.next.inj h
  case rxParse | rxPoll | dspAdd | dspStart | dspStop => exact absurd hno Bool.false_ne_true
  case txOnce | txRep | txStop | txVer => exact transmit_same_state _ _ _
  case dspEmit => rfl
  all_goals exact emit_same_state _ _

end Sys2Proof.Machine

/-! The time codec: `TIME.ENC`, `TIME.DEC` and `TIME.NORM`, the canonical time bytes and the accuracy of the two
roundings (41_time_codec.md R151 to R156). -/

namespace Sys2Proof.Machine

/-! ### The time byte of a duration -/

/-- The exponent and count R152 chooses are the two nibbles of the byte (R102). -/
theorem timeByteOf_iff_nibbles (d : Int) (b : Byte) :
    TimeByteOf d b ↔
      b.toNat / 16 ≤ 12 ∧ (d < 2000 → b.toNat / 16 = 0) ∧
      (2000 ≤ d → 1000 * 2 ^ (b.toNat / 16 + 1) ≤ d ∧ d < 1000 * 2 ^ (b.toNat / 16 + 2)) ∧
      ((b.toNat % 16 : Nat) : Int) = d / (250 * 2 ^ (b.toNat / 16)) := by
  constructor
  · rintro ⟨h, l, hexp, hcount, hbyte, hsmall, hlarge, hquot⟩
    obtain rfl : b.toNat / 16 = h := by omega
    obtain rfl : b.toNat % 16 = l := by omega
    exact ⟨hexp, hsmall, hlarge, hquot⟩
  · rintro ⟨hexp, hsmall, hlarge, hquot⟩
    exact ⟨b.toNat / 16, b.toNat % 16, hexp, by omega, by omega, hsmall, hlarge, hquot⟩

/-- The encoder has an answer for every duration in its range (R152). -/
theorem timeEnc_of_encodable {d : Int} (hd : EncodableDur d) : ∃ b, timeEnc d = .ok b ∧ TimeByteOf d b := by
  obtain ⟨b, h, l, henc, hbyte⟩ := timeEnc_spec d hd
  exact ⟨b, henc, h, l, hbyte⟩

/-- The encoder answers `b` exactly for the durations in its range whose time byte is `b` (R152). -/
theorem timeEnc_eq_ok_iff {d : Int} {b : Byte} : timeEnc d = .ok b ↔ EncodableDur d ∧ TimeByteOf d b := by
  by_cases hd : EncodableDur d
  · obtain ⟨b', henc, hbyte'⟩ := timeEnc_of_encodable hd
    constructor
    · intro hb
      obtain rfl := Except.ok.inj (henc.symm.trans hb)
      exact ⟨hd, hbyte'⟩
    · rintro ⟨-, hbyte⟩
      rw [timeByteOf_unique hd hbyte henc, henc]
  · simp [timeEnc_error d hd, hd]

/-- `TIME.ENC` adds one result, what the encoder answers, and does nothing else (R152). -/
theorem exec_timeEnc (dur : Dur) (s : State) :
    exec (.timeEnc dur) s = .next (answer ((timeEnc dur.toInt).map fun b => [b]) s) := rfl

/-- Settles O16: the encoder's two answers, each laid out as a result packet. -/
theorem timeEncAnswer : Obligations.TimeEncAnswer := by
  unfold Obligations.TimeEncAnswer
  refine fun s dur => ⟨fun hd => ?_, fun hd => ?_⟩
  · rw [exec_timeEnc, timeEnc_error _ hd]
    rfl
  · obtain ⟨b, henc, hbyte⟩ := timeEnc_of_encodable hd
    refine ⟨b, hbyte, ?_⟩
    rw [exec_timeEnc, henc]
    rfl

/-! ### Decoding -/

/-- `TIME.DEC` adds one result, the decoded duration, and does nothing else (R151). -/
theorem exec_timeDec (b : Byte) (s : State) :
    exec (.timeDec b) s = .next (answer (.ok (durBytes (timeDec b))) s) := rfl

/-- Settles O15, by the closed forms of the decoder and of a duration's four bytes. -/
theorem timeDecAnswer : Obligations.TimeDecAnswer := by
  unfold Obligations.TimeDecAnswer
  intro s b
  rw [exec_timeDec, durBytes_eq_bigEndian4, timeDec_eq, answer_ok_eq]

/-- A byte decodes to its count times the step `250 * 2 ^ h` of its exponent (R151, R154). -/
theorem timeDec_eq_step_mul (b : Byte) :
    (timeDec b : Int) = 250 * 2 ^ (b.toNat / 16) * ((b.toNat % 16 : Nat) : Int) := by
  rw [timeDec_eq, Nat.cast_mul, Nat.cast_mul, Nat.cast_pow]
  ring

/-- The time byte of a duration decodes to the duration's whole steps (R154). -/
theorem timeDec_of_timeByteOf {d : Int} {b : Byte} (hbyte : TimeByteOf d b) :
    (timeDec b : Int) = 250 * 2 ^ (b.toNat / 16) * (d / (250 * 2 ^ (b.toNat / 16))) := by
  obtain ⟨-, -, -, hquot⟩ := (timeByteOf_iff_nibbles d b).1 hbyte
  rw [timeDec_eq_step_mul, hquot]

/-! ### Canonical bytes -/

/-- A time byte the encoder chooses is canonical: an exponent above 0 is chosen for eight steps or more (R153). -/
theorem canonicalTime_of_timeByteOf {d : Int} {b : Byte} (hbyte : TimeByteOf d b) : CanonicalTime b := by
  obtain ⟨hexp, hsmall, hlarge, hquot⟩ := (timeByteOf_iff_nibbles d b).1 hbyte
  rcases Nat.eq_zero_or_pos (b.toNat / 16) with hzero | hpos
  · exact .inl hzero
  · have h2000 : 2000 ≤ d := by omega
    have hlow : 1000 * 2 ^ (b.toNat / 16 + 1) ≤ d := (hlarge h2000).1
    have hcount : (8 : Int) ≤ d / (250 * 2 ^ (b.toNat / 16)) := by
      rw [Int.le_ediv_iff_mul_le (by positivity)]
      rw [pow_succ] at hlow
      omega
    exact .inr ⟨hpos, hexp, by omega⟩

/-- What a canonical byte decodes to is in the encoder's range (R153). -/
theorem encodableDur_timeDec {b : Byte} (hcanon : CanonicalTime b) : EncodableDur (timeDec b) := by
  have hexp : b.toNat / 16 ≤ 12 := by omega
  have hstep : 2 ^ (b.toNat / 16) ≤ 2 ^ 12 := Nat.pow_le_pow_right (by omega) hexp
  have hcount : b.toNat % 16 ≤ 15 := by omega
  have hmul : b.toNat % 16 * 2 ^ (b.toNat / 16) ≤ 15 * 2 ^ 12 := Nat.mul_le_mul hcount hstep
  rw [timeDec_eq]
  omega

/-- A canonical byte is the time byte of what it decodes to (R153). -/
theorem timeByteOf_timeDec {b : Byte} (hcanon : CanonicalTime b) : TimeByteOf (timeDec b) b := by
  have hstep : (0 : Int) < 250 * 2 ^ (b.toNat / 16) := by positivity
  rw [timeByteOf_iff_nibbles, timeDec_eq_step_mul, Int.mul_ediv_cancel_left _ hstep.ne']
  rcases hcanon with hzero | ⟨hpos, hexp, hcount⟩
  · rw [hzero, pow_zero]
    refine ⟨by omega, fun _ => rfl, fun hlarge => ?_, rfl⟩
    omega
  · have hpow : (2 : Int) ≤ 2 ^ (b.toNat / 16) := le_self_pow₀ (by omega) (by omega)
    have hlow : 250 * 2 ^ (b.toNat / 16) * 8 ≤ 250 * 2 ^ (b.toNat / 16) * ((b.toNat % 16 : Nat) : Int) :=
      mul_le_mul_of_nonneg_left (by omega) hstep.le
    have hhigh : 250 * 2 ^ (b.toNat / 16) * ((b.toNat % 16 : Nat) : Int) < 250 * 2 ^ (b.toNat / 16) * 16 :=
      mul_lt_mul_of_pos_left (by omega) hstep
    refine ⟨hexp, fun hsmall => ?_, fun _ => ?_, rfl⟩
    · omega
    · rw [pow_add, pow_add]
      omega

/-- There are 16 canonical bytes of exponent 0 and 8 of each exponent from 1 to 12 (R153). -/
theorem canonicalTime_count : ((List.range 256).filter fun n => CanonicalTime (BitVec.ofNat 8 n)).length = 112 := by
  decide +kernel

/-- Settles O17: the encoder's answers are canonical, and a canonical byte is the time byte of what it decodes to. -/
theorem canonicalBytesRoundTrip : Obligations.CanonicalBytesRoundTrip := by
  unfold Obligations.CanonicalBytesRoundTrip
  refine ⟨fun b => ?_, canonicalTime_count⟩
  rw [timeEnc_eq_ok_iff]
  exact ⟨fun ⟨_, hbyte⟩ => canonicalTime_of_timeByteOf hbyte,
    fun hcanon => ⟨encodableDur_timeDec hcanon, timeByteOf_timeDec hcanon⟩⟩

/-- Settles O18: the encoded byte decodes to the whole steps of the duration (`timeDec_of_timeByteOf`), so what is cut
off is the remainder of a division by the step. -/
theorem encodingTruncates : Obligations.EncodingTruncates := by
  unfold Obligations.EncodingTruncates
  intro d hd
  obtain ⟨b, henc, hbyte⟩ := timeEnc_of_encodable hd
  have hstep : (0 : Int) < 250 * 2 ^ (b.toNat / 16) := by positivity
  have hsplit := Int.mul_ediv_add_emod d (250 * 2 ^ (b.toNat / 16))
  rw [← timeDec_of_timeByteOf hbyte] at hsplit
  have hnonneg := Int.emod_nonneg d hstep.ne'
  have hless := Int.emod_lt_of_pos d hstep
  refine ⟨b, henc, canonicalTime_of_timeByteOf hbyte, by omega, by omega, ?_⟩
  rw [Int.dvd_iff_emod_eq_zero]
  omega

/-! ### Normalisation -/

/-- A minute or second above 59 or a millisecond above 999 is `UnsupportedDuration` (R155). -/
theorem timeNorm_of_outOfRange {hh mm ss : Byte} {ms : Half}
    (hfields : 59 < mm.toNat ∨ 59 < ss.toNat ∨ 999 < ms.toNat) :
    timeNorm hh mm ss ms = .error .unsupportedDuration := if_pos hfields

/-- Fields in range are normalised to their milliseconds, the sub-second part snapped to 250 ms (R155). -/
theorem timeNorm_of_inRange {hh mm ss : Byte} {ms : Half}
    (hfields : ¬ (59 < mm.toNat ∨ 59 < ss.toNat ∨ 999 < ms.toNat)) :
    timeNorm hh mm ss ms = .ok
      (hh.toNat * 3600000 + mm.toNat * 60000 + ss.toNat * 1000 + ms.toNat / 250 * 250 +
        (if 125 < ms.toNat % 250 then 250 else 0)) := by
  simp only [timeNorm, if_neg hfields]
  refine congrArg Except.ok ?_
  split <;> omega

/-- `TIME.NORM` adds one result, what the normalisation answers, and does nothing else (R155). -/
theorem exec_timeNorm (hh mm ss : Byte) (ms : Half) (s : State) :
    exec (.timeNorm hh mm ss ms) s = .next (answer ((timeNorm hh mm ss ms).map durBytes) s) := rfl

/-- Settles O19: the normalisation's two answers, each laid out as a result packet. -/
theorem timeNormAnswer : Obligations.TimeNormAnswer := by
  unfold Obligations.TimeNormAnswer
  refine fun s hh mm ss ms => ⟨fun hfields => ?_, fun hmm hss hms => ?_⟩
  · rw [exec_timeNorm, timeNorm_of_outOfRange hfields]
    rfl
  · rw [exec_timeNorm, timeNorm_of_inRange (by omega), ← durBytes_eq_bigEndian4]
    rfl

/-- Settles O20: the snapped part is the sub-second part less its remainder by 250, or that plus 250 when the remainder
is above 125. -/
theorem normalisedIsNearestQuarterStep : Obligations.NormalisedIsNearestQuarterStep := by
  unfold Obligations.NormalisedIsNearestQuarterStep
  intro hh mm ss ms n hnorm
  have hhours : hh.toNat ≤ 255 := by omega
  by_cases hfields : 59 < mm.toNat ∨ 59 < ss.toNat ∨ 999 < ms.toNat
  · rw [timeNorm_of_outOfRange hfields] at hnorm
    exact nomatch hnorm
  · rw [timeNorm_of_inRange hfields] at hnorm
    obtain rfl := Except.ok.inj hnorm
    split <;> omega

end Sys2Proof.Machine

/-! The command table: `CMD.OPC`, `CMD.GRP` and `CMD.NAME`, the two name lookups and the group lookup against the rows
of the tables (42_command_table.md R171 to R174). -/

namespace Sys2Proof.Machine

/-! ### The opcode of a command -/

/-- `OpcodeFor` answers what the row of the command holds, and answers nothing else (R171). -/
theorem opcodeFor_eq_ok_iff {c : Cfg} {cid : Half} {opcode : Byte} {cls : CmdClass} :
    opcodeFor c cid = .ok (opcode, cls) ↔ c.nameRom[cid.toNat]? = some ⟨opcode, cls⟩ := by
  rcases hrow : c.nameRom[cid.toNat]? with _ | ⟨opcode', cls'⟩ <;> simp [opcodeFor, nameRow, hrow]

/-- A command identifier past the table is `UnknownCommand` (R171). -/
theorem opcodeFor_of_length_le {c : Cfg} {cid : Half} (hlen : c.nameRom.length ≤ cid.toNat) :
    opcodeFor c cid = .error .unknownCommand := by
  simp only [opcodeFor, nameRow, List.getElem?_eq_none hlen]

/-- `CMD.OPC` adds one result, what the lookup answers, and does nothing else (R171). -/
theorem exec_cmdOpc (cid : Half) (s : State) :
    exec (.cmdOpc cid) s = .next (answer ((opcodeFor s.cfg cid).map fun r => [r.1, classCode r.2]) s) := rfl

/-- Settles O21: the lookup's two answers, each laid out as a result packet. -/
theorem cmdOpcAnswer : Obligations.CmdOpcAnswer := by
  unfold Obligations.CmdOpcAnswer
  refine fun s cid => ⟨fun row hrow => ?_, fun hlen => ?_⟩
  · rw [exec_cmdOpc, opcodeFor_eq_ok_iff.2 hrow]
    rfl
  · rw [exec_cmdOpc, opcodeFor_of_length_le hlen]
    rfl

/-! ### The command of a group slot -/

/-- `LookupGroup` answers what the slot holds, and answers nothing else (R172). -/
theorem lookupGroup_eq_ok_iff {c : Cfg} {idx : Nat} {v : Bool} {opcode : Byte} {cid : Half} :
    lookupGroup c idx v = .ok (opcode, cid) ↔ slotAt c idx v = some ⟨opcode, cid⟩ := by
  rcases hslot : slotAt c idx v with _ | ⟨opcode', cid'⟩ <;> simp [lookupGroup, groupSlot_eq, hslot]

/-- A reserved slot is `UnknownCommandGroup` (R172). -/
theorem lookupGroup_of_slotAt_none {c : Cfg} {idx : Nat} {v : Bool} (hslot : slotAt c idx v = none) :
    lookupGroup c idx v = .error .unknownCommandGroup := by
  simp only [lookupGroup, groupSlot_eq, hslot]

/-- `CMD.GRP` adds one result, what the lookup answers, and does nothing else (R172). -/
theorem exec_cmdGrp (idx : Byte) (v : Bool) (s : State) :
    exec (.cmdGrp idx v) s =
      .next (answer ((lookupGroup s.cfg idx.toNat v).map fun r => r.1 :: be16Bytes r.2) s) := rfl

/-- `CMD.GRP` faults on a slot that holds no row (R172). -/
theorem exec_cmdGrp_of_slotAt_none {s : State} {idx : Byte} {v : Bool} (hslot : slotAt s.cfg idx.toNat v = none) :
    exec (.cmdGrp idx v) s = .next (answered s [0x04]) := by
  rw [exec_cmdGrp, lookupGroup_of_slotAt_none hslot]
  rfl

/-- Settles O22: the lookup's two answers, each laid out as a result packet; an index above 31 has no slot. -/
theorem cmdGrpAnswer : Obligations.CmdGrpAnswer := by
  unfold Obligations.CmdGrpAnswer
  refine fun s idx v => ⟨fun row hslot => ?_, exec_cmdGrp_of_slotAt_none,
    fun hidx => exec_cmdGrp_of_slotAt_none (slotAt_of_index_out_of_range _ _ v hidx)⟩
  rw [exec_cmdGrp, lookupGroup_eq_ok_iff.2 hslot, ← be16Bytes_eq_bigEndian2]
  rfl

/-! ### The command of an opcode -/

/-- What `NameFor` answers is a row of the opcode: in a table of at most 65536 rows every index is a command
identifier (R6, R173). -/
theorem row_of_nameFor_ok {c : Cfg} (hwf : c.WellFormed) {opcode : Byte} {cid : Half}
    (hname : nameFor c opcode = .ok cid) : ∃ row, c.nameRom[cid.toNat]? = some row ∧ row.opcode = opcode := by
  simp only [nameFor] at hname
  split at hname
  next k hfind =>
    obtain rfl := Except.ok.inj hname
    obtain ⟨hlt, hopcode, -⟩ := List.findIdx?_eq_some_iff_getElem.1 hfind
    have hindex : (BitVec.ofNat 16 k).toNat = k :=
      Nat.mod_eq_of_lt (hlt.trans_le hwf.ncmdRange.2)
    exact ⟨c.nameRom[k], by rw [hindex, List.getElem?_eq_getElem hlt], beq_iff_eq.1 hopcode⟩
  next => exact nomatch hname

/-- `CMD.NAME` adds one result, what the lookup answers, and does nothing else (R173). -/
theorem exec_cmdName (opcode : Byte) (s : State) :
    exec (.cmdName opcode) s = .next (answer ((nameFor s.cfg opcode).map be16Bytes) s) := rfl

/-- Settles O23: the lookup's two answers, each laid out as a result packet; that the opcodes differ makes the row of
an opcode the one that is found (`nameFor_ok_of_row`). -/
theorem cmdNameAnswer : Obligations.CmdNameAnswer := by
  unfold Obligations.CmdNameAnswer
  refine fun s opcode hwf => ⟨fun cid row hrow hopcode => ?_, fun habsent => ?_⟩
  · rw [exec_cmdName, ← hopcode, nameFor_ok_of_row hwf hrow, ← be16Bytes_eq_bigEndian2]
    rfl
  · rw [exec_cmdName, nameFor_error habsent]
    rfl

/-- Settles O24: what either lookup answers is a row of the name table, and the row fixes what the other answers. -/
theorem nameAndOpcodeAreInverse : Obligations.NameAndOpcodeAreInverse := by
  unfold Obligations.NameAndOpcodeAreInverse
  refine fun c hwf => ⟨fun cid opcode cls hopcode => ?_, fun opcode cid hname => ?_⟩
  · exact nameFor_ok_of_row hwf (opcodeFor_eq_ok_iff.1 hopcode)
  · obtain ⟨row, hrow, rfl⟩ := row_of_nameFor_ok hwf hname
    exact ⟨row.cls, opcodeFor_eq_ok_iff.2 hrow⟩

/-! ### The two tables -/

/-- A populated slot is a variant of one of the pairs of the group table (R62). -/
theorem slotAt_eq_some {c : Cfg} {idx : Nat} {v : Bool} {r : GroupRow} (hslot : slotAt c idx v = some r) :
    ∃ p ∈ c.groupRom.toList, (if v then p.timed else p.untimed) = some r := by
  obtain ⟨p, hpair, hvariant⟩ := Option.bind_eq_some_iff.1 hslot
  exact ⟨p, List.mem_of_getElem? hpair, hvariant⟩

/-- A populated slot names a row of the name table with its opcode, of class `TIMED` exactly for variant 1 (R7 (c) and
(d), R174). -/
theorem row_of_slotAt_eq_some {c : Cfg} (hwf : c.WellFormed) {idx : Nat} {v : Bool} {r : GroupRow}
    (hslot : slotAt c idx v = some r) :
    ∃ row, c.nameRom[r.cid.toNat]? = some row ∧ row.opcode = r.opcode ∧ (row.cls = .timed ↔ v = true) := by
  obtain ⟨p, hp, hvariant⟩ := slotAt_eq_some hslot
  have hagree : (c.nameRom[r.cid.toNat]?).map (·.opcode) = some r.opcode ∧
      ((c.nameRom[r.cid.toNat]?).map (·.cls) = some .timed ↔ v = true) := by
    cases v with
    | false => simpa only [Bool.false_eq_true, iff_false] using hwf.untimedRows p hp r hvariant
    | true => simpa only [iff_true] using hwf.timedRows p hp r hvariant
  obtain ⟨hopcode, htimed⟩ := hagree
  obtain ⟨row, hrow, hopcode⟩ := Option.map_eq_some_iff.1 hopcode
  exact ⟨row, hrow, hopcode, by simpa [hrow] using htimed⟩

/-- Settles O25: the slot that is answered names a row of the name table (`row_of_slotAt_eq_some`). -/
theorem groupAndNameTablesAgree : Obligations.GroupAndNameTablesAgree := by
  unfold Obligations.GroupAndNameTablesAgree
  intro c idx v opcode cid hwf hgroup
  obtain ⟨⟨_, cls⟩, hrow, rfl, htimed⟩ := row_of_slotAt_eq_some hwf (lookupGroup_eq_ok_iff.1 hgroup)
  exact ⟨cls, opcodeFor_eq_ok_iff.2 hrow, htimed⟩

end Sys2Proof.Machine

/-! Frames and transmit: `FRM.ONCE`, `FRM.REP`, the four sends and `ACK.CLS`, what a send may add to the history, and
what its frame depends on (43_transmit.md R191 to R202). -/

namespace Sys2Proof.Machine

/-! ### Frames -/

/-- `FRM.ONCE` adds one result, what the frame builder answers, and does nothing else (R191). -/
theorem exec_frmOnce (text : Bytes) (cid : Half) (dur : Dur) (s : State) :
    exec (.frmOnce text cid dur) s = .next (answer (buildOnce s.cfg text cid dur.toInt) s) := rfl

/-- Settles O26: the frame builder's two answers, each laid out as a result packet. -/
theorem frmOnceAnswer : Obligations.FrmOnceAnswer := by
  unfold Obligations.FrmOnceAnswer
  refine fun s text cid dur => ⟨fun body hbody => ?_, fun code hfault => ?_⟩
  · rw [exec_frmOnce, buildOnce_of_sendBody hbody, answer_ok_eq]
  · obtain ⟨f, hbuild, rfl⟩ := buildOnce_of_sendFault hfault
    rw [exec_frmOnce, hbuild, answer_error_eq]

/-- `FRM.REP` adds one result, what the frame builder answers, and does nothing else (R192). -/
theorem exec_frmRep (text : Bytes) (cid : Half) (dur : Dur) (iv : Half) (s : State) :
    exec (.frmRep text cid dur iv) s = .next (answer (buildRep s.cfg text cid dur.toInt iv.toNat) s) := rfl

/-- Settles O27: the frame builder's answers, each laid out as a result packet; the interval is looked at only when
the operands have a frame body. -/
theorem frmRepAnswer : Obligations.FrmRepAnswer := by
  unfold Obligations.FrmRepAnswer
  refine fun s text cid dur iv => ⟨fun body hbody hlow hhigh => ?_, fun body hbody hinterval => ?_,
    fun code hfault => ?_⟩
  · rw [exec_frmRep, buildRep_of_sendBody hbody hlow hhigh, answer_ok_eq]
  · rw [exec_frmRep, buildRep_of_bad_interval hbody hinterval, answer_error_eq]
    rfl
  · obtain ⟨f, hbuild, rfl⟩ := buildRep_of_sendFault hfault
    rw [exec_frmRep, hbuild, answer_error_eq]

/-! ### Sends -/

/-- `TX.ONCE` is the send of the send-once frame (R195). -/
theorem exec_txOnce (text : Bytes) (cid : Half) (dur : Dur) (s : State) :
    exec (.txOnce text cid dur) s = .next (transmit (buildOnce s.cfg text cid dur.toInt) ackPayload s) := rfl

/-- Settles O28: a frame is exchanged and its acknowledgement classified (`transmit_ack`), and operands without one
end in their fault (`transmit_err`). -/
theorem txOnceAnswer : Obligations.TxOnceAnswer := by
  unfold Obligations.TxOnceAnswer
  refine fun s text cid dur hwf => ⟨fun body q hbody hack => ?_, fun code hfault => ?_⟩
  · rw [exec_txOnce, buildOnce_of_sendBody hbody, transmit_ack hwf hack]
  · obtain ⟨f, hbuild, rfl⟩ := buildOnce_of_sendFault hfault
    rw [exec_txOnce, hbuild, transmit_err]

/-- `TX.REP` is the send of the send-repeating frame (R196). -/
theorem exec_txRep (text : Bytes) (cid : Half) (dur : Dur) (iv : Half) (s : State) :
    exec (.txRep text cid dur iv) s =
      .next (transmit (buildRep s.cfg text cid dur.toInt iv.toNat) ackPayload s) := rfl

/-- Settles O29: as `txOnceAnswer`, a bad interval being one more reason for which there is no frame. -/
theorem txRepAnswer : Obligations.TxRepAnswer := by
  unfold Obligations.TxRepAnswer
  refine fun s text cid dur iv hwf => ⟨fun body q hbody hlow hhigh hack => ?_, fun body hbody hinterval => ?_,
    fun code hfault => ?_⟩
  · rw [exec_txRep, buildRep_of_sendBody hbody hlow hhigh, transmit_ack hwf hack]
  · rw [exec_txRep, buildRep_of_bad_interval hbody hinterval, transmit_err]
    rfl
  · obtain ⟨f, hbuild, rfl⟩ := buildRep_of_sendFault hfault
    rw [exec_txRep, hbuild, transmit_err]

/-- `TX.STOP` is the send of the stop tag (R197). -/
theorem exec_txStop (s : State) :
    exec .txStop s = .next (transmit (.ok s.cfg.tagStop.toList) ackPayload s) := rfl

/-- Settles O30: every read has a classification (`ackPacket_total`), and the stop tag is exchanged whatever the state
(`transmit_ack`). -/
theorem txStopAnswer : Obligations.TxStopAnswer := by
  unfold Obligations.TxStopAnswer
  refine fun s hwf => ⟨ackPacket_total s.cfg (txAnswer s), fun q hack => ?_⟩
  rw [exec_txStop, transmit_ack hwf hack]

/-! ### The version of the adapter -/

/-- A class is answered only for an acknowledgement with a status of that class, and with its trailer (R200). -/
theorem ackRead_of_ackClassify_ok {c : Cfg} {a : Option Bytes} {cls : AckClass} {tr : Byte}
    (hclass : ackClassify c a = .ok (cls, tr)) : ∃ st, AckRead c a st tr ∧ ackStatus c st = .ok cls := by
  by_cases hread : ∃ st tr', AckRead c a st tr'
  · obtain ⟨st, tr', hread⟩ := hread
    rw [ackClassify_read hread] at hclass
    rcases hstatus : ackStatus c st with f | cls'
    · simp [hstatus, Except.map] at hclass
    · obtain ⟨rfl, rfl⟩ : cls' = cls ∧ tr' = tr := by simpa [hstatus, Except.map] using hclass
      exact ⟨st, hread, hstatus⟩
  · rw [ackClassify_no_read fun st tr' h => hread ⟨st, tr', h⟩] at hclass
    exact nomatch hclass

/-- No other status than `ST_FIRMWARE` has the class `FIRMWARE` (R200). -/
theorem eq_stFirmware_of_ackStatus {c : Cfg} {st : Byte} (hstatus : ackStatus c st = .ok .firmware) :
    st = c.stFirmware := by
  by_contra hne
  simp only [ackStatus, if_neg hne] at hstatus
  split_ifs at hstatus <;> simp at hstatus

/-- An acknowledgement with the status `ST_FIRMWARE` has the class `FIRMWARE` (R200). -/
theorem ackClassify_firmware {c : Cfg} (hwf : c.WellFormed) {a : Option Bytes} {tr : Byte}
    (hread : AckRead c a c.stFirmware tr) : ackClassify c a = .ok (.firmware, tr) := by
  obtain ⟨-, hfirmware, -⟩ := ackStatus_known hwf
  rw [ackClassify_read hread, hfirmware]
  rfl

/-- A trailer that reads as two digits is a version (R198). -/
theorem versionPayload_of_digits {c : Cfg} {tr : Byte} {x y : Fin 10} (hdigits : digits2 c tr = some (x, y)) :
    versionPayload c (.firmware, tr) = .ok [tr, BitVec.ofNat 8 x.val, BitVec.ofNat 8 y.val] := by
  simp only [versionPayload, if_true, hdigits]

/-- A trailer without two digits is `InvalidResponse` (R198). -/
theorem versionPayload_of_no_digits {c : Cfg} {tr : Byte} (hdigits : digits2 c tr = none) :
    versionPayload c (.firmware, tr) = .error .invalidResponse := by
  simp only [versionPayload, if_true, hdigits]

/-- `TX.VER` exchanges the version tag, whatever the state, and answers the version that the acknowledgement holds
(R198). -/
theorem exec_txVer (s : State) :
    exec .txVer s = .next (exchanged s s.cfg.tagVer.toList
      (resultPacket (ackClassify s.cfg (txAnswer s) >>= versionPayload s.cfg))) :=
  congrArg Host.Outcome.next transmit_ok

/-- After a `FIRMWARE` acknowledgement the answer is the reading of its trailer (R198). -/
theorem exec_txVer_of_firmware {s : State} (hwf : s.cfg.WellFormed) {tr : Byte}
    (hread : AckRead s.cfg (txAnswer s) s.cfg.stFirmware tr) :
    exec .txVer s = .next (exchanged s s.cfg.tagVer.toList
      (resultPacket (versionPayload s.cfg (.firmware, tr)))) := by
  rw [exec_txVer, ackClassify_firmware hwf hread]
  rfl

/-- A read without the status `ST_FIRMWARE` holds no version: its own fault, one byte, is reported, and a success, which
is longer, becomes `InvalidResponse` (R198). -/
theorem resultPacket_version_of_not_firmware {c : Cfg} (hwf : c.WellFormed) {a : Option Bytes} {q : Bytes}
    (hack : AckPacket c a q) (hother : ∀ tr, ¬ AckRead c a c.stFirmware tr) :
    resultPacket (ackClassify c a >>= versionPayload c) = if q.length = 1 then q else [0x07] := by
  obtain rfl := ackPacket_spec hwf hack
  rcases hclass : ackClassify c a with f | ⟨cls, tr⟩
  · rfl
  · have hcls : cls ≠ .firmware := by
      rintro rfl
      obtain ⟨st, hread, hstatus⟩ := ackRead_of_ackClassify_ok hclass
      exact hother tr (eq_stFirmware_of_ackStatus hstatus ▸ hread)
    have hversion : versionPayload c (cls, tr) = .error .invalidResponse := if_neg hcls
    exact congrArg resultPacket hversion

/-- Settles O31: the first two clauses are the two readings of the trailer of a `FIRMWARE` acknowledgement, the third
is every other read. -/
theorem txVerAnswer : Obligations.TxVerAnswer := by
  unfold Obligations.TxVerAnswer
  refine fun s hwf => ⟨fun tr x y hread hdigits => ?_, fun tr hread hdigits => ?_, fun q hack hother => ?_⟩
  · rw [exec_txVer_of_firmware hwf hread, versionPayload_of_digits hdigits]
    rfl
  · rw [exec_txVer_of_firmware hwf hread, versionPayload_of_no_digits hdigits]
    rfl
  · rw [exec_txVer, resultPacket_version_of_not_firmware hwf hack hother]

/-! ### Acknowledgements -/

/-- `ACK.CLS` adds one result, the classification, and does nothing else (R200). -/
theorem exec_ackCls (bytes : Bytes) (s : State) :
    exec (.ackCls bytes) s =
      .next (answered s (resultPacket (ackClassify s.cfg (some bytes) >>= ackPayload))) := rfl

/-- Settles O32: every byte string has a classification (`ackPacket_total`), and the classifier answers it
(`ackPacket_spec`). -/
theorem ackClsAnswer : Obligations.AckClsAnswer := by
  unfold Obligations.AckClsAnswer
  refine fun s bytes hwf => ⟨ackPacket_total s.cfg (some bytes), fun q hack => ?_⟩
  rw [exec_ackCls, ackPacket_spec hwf hack]

/-! ### What a send adds to the history -/

/-- What O33 claims of one send from `s` to `t`: a codec fault alone, or another result after one write and one read
(R201). -/
def CodecFaultOrExchange (s t : State) : Prop :=
  ∃ q, (q ∈ ([[0x01], [0x03], [0x05], [0x06]] : List Bytes) ∧ t = answered s q) ∨
    (q ∉ ([[0x01], [0x03], [0x05], [0x06]] : List Bytes) ∧
      ∃ f, t.trace = s.trace ++ [.txw f, .txr (txAnswer s), .res q])

/-- A send whose frame can fail with codec faults only: without a frame that fault is all it adds, and with one its
result is a classification, which is no codec fault (R201). -/
theorem codecFaultOrExchange_transmit {frame : Result Bytes}
    (hfault : ∀ f, frame = .error f → faultByte f ∈ ([0x01, 0x03, 0x05, 0x06] : List Byte)) (s : State) :
    CodecFaultOrExchange s (transmit frame ackPayload s) := by
  rcases transmit_cases frame s with ⟨f, hframe, hsend⟩ | ⟨f, -, hsend⟩
  · exact ⟨[faultByte f], .inl ⟨List.mem_map_of_mem (f := fun b => [b]) (hfault f hframe), hsend⟩⟩
  · exact ⟨_, .inr ⟨classified_is_no_codec_fault s.cfg (txAnswer s), f, congrArg State.trace hsend⟩⟩

/-- Settles O33: both sends are one whose frame fails with codec faults only. -/
theorem noIoOnInvalidInput : Obligations.NoIoOnInvalidInput := by
  unfold Obligations.NoIoOnInvalidInput
  rintro s t i (⟨text, cid, dur, rfl⟩ | ⟨text, cid, dur, iv, rfl⟩) hexec
  · obtain rfl := Host.Outcome.next.inj hexec
    exact codecFaultOrExchange_transmit
      (fun f hbuild => List.mem_append_left [0x06] (buildOnce_fault hbuild)) s
  · obtain rfl := Host.Outcome.next.inj hexec
    exact codecFaultOrExchange_transmit (fun f hbuild => buildRep_fault hbuild) s

/-- Settles O34: the frame written is `frameOf` of the configuration and the operation (`exec_frame_written`), which
both runs share. -/
theorem frameDependsOnOperandsOnly : Obligations.FrameDependsOnOperandsOnly := by
  unfold Obligations.FrameDependsOnOperandsOnly
  intro s s' t t' i f f' hcfg hexec hexec' hwritten hwritten'
  have hframe : frameOf s.cfg i = some f := exec_frame_written hexec hwritten
  have hframe' : frameOf s.cfg i = some f' := hcfg ▸ exec_frame_written hexec' hwritten'
  exact Option.some.inj (hframe.symm.trans hframe')

end Sys2Proof.Machine

/-! The receive path: the parser against the rules' four outcomes, `RX.PARSE`, `RX.POLL` and `RX.VER`, the time of a
parsed event and the version cell (44_receive.md R222 to R226). -/

namespace Sys2Proof.Machine

/-! ### The parser's outcomes -/

/-- The parser returns an event exactly for the reads the rules parse to it (R222). -/
theorem parsesTo_iff {c : Cfg} {a : Option Bytes} {ev : Event} {v : Byte} :
    ParsesTo c a ev v ↔ parseEvent c a = .ok (ev, v) :=
  ⟨parseEvent_of_parsesTo, parsesTo_of_parseEvent⟩

/-- The parser faults with `InvalidResponse` exactly on the reads that are no event read (R222). -/
theorem parseInvalidResponse_iff {c : Cfg} {a : Option Bytes} :
    ParseInvalidResponse c a ↔ parseEvent c a = .error .invalidResponse :=
  ⟨parseEvent_of_invalidResponse, invalidResponse_of_parseEvent⟩

/-- The parser faults with `InvalidAddress` exactly on the event reads with a bad address digit (R222). -/
theorem parseInvalidAddress_iff {c : Cfg} {a : Option Bytes} :
    ParseInvalidAddress c a ↔ parseEvent c a = .error .invalidAddress :=
  ⟨parseEvent_of_invalidAddress, invalidAddress_of_parseEvent⟩

/-- The parser faults with `UnknownCommandGroup` exactly on the event reads with a good address and no group slot
(R222). -/
theorem parseUnknownGroup_iff {c : Cfg} {a : Option Bytes} :
    ParseUnknownGroup c a ↔ parseEvent c a = .error .unknownCommandGroup :=
  ⟨parseEvent_of_unknownGroup, unknownGroup_of_parseEvent⟩

/-- A read has one parse: the parser is a function. -/
theorem parsesTo_unique {c : Cfg} {a : Option Bytes} {ev ev' : Event} {v v' : Byte} (h : ParsesTo c a ev v)
    (h' : ParsesTo c a ev' v') : ev = ev' ∧ v = v' := by
  have hsame : Except.ok (ε := FaultKind) (ev, v) = .ok (ev', v') :=
    (parsesTo_iff.1 h).symm.trans (parsesTo_iff.1 h')
  exact Prod.mk.inj (Except.ok.inj hsame)

/-- A read that parses has none of the three faults. -/
theorem parseEvent_ne_error_of_parsesTo {c : Cfg} {a : Option Bytes} {ev : Event} {v : Byte}
    (h : ParsesTo c a ev v) (f : FaultKind) : parseEvent c a ≠ .error f := by
  rw [parsesTo_iff.1 h]
  exact nofun

/-- The parser answers at most one fault. -/
theorem parseEvent_fault_unique {c : Cfg} {a : Option Bytes} {f g : FaultKind} (hf : parseEvent c a = .error f)
    (hg : parseEvent c a = .error g) : f = g :=
  Except.error.inj (hf.symm.trans hg)

/-- The packed decimal configuration reads a byte by its nibbles (R104). -/
theorem digits2_bcd_eq_some_iff {c : Cfg} (hc : c.digits = .bcd) (b : Byte) (t o : Fin 10) :
    digits2 c b = some (t, o) ↔ b.toNat = 16 * t.val + o.val := by
  rw [digits2, hc]
  exact digits2BCD_eq_some_iff b t o

/-- The decimal-expansion configuration reads a byte by its value (R104). -/
theorem digits2_divmod_eq_some_iff {c : Cfg} (hc : c.digits = .divmod) (b : Byte) (t o : Fin 10) :
    digits2 c b = some (t, o) ↔ b.toNat = 10 * t.val + o.val := by
  rw [digits2, hc]
  exact digits2DIVMOD_eq_some_iff b t o

/-- Settles O35: each outcome of the rules is one value of the parser (the four `↔` lemmas above), every read has one
(`parse_outcome_cases`), and two would be two values of one function. -/
theorem parseOutcomesPartitionReads : Obligations.ParseOutcomesPartitionReads := by
  unfold Obligations.ParseOutcomesPartitionReads
  refine fun c a => ⟨fun _ _ => parsesTo_iff, parseInvalidResponse_iff, parseInvalidAddress_iff,
    parseUnknownGroup_iff, parse_outcome_cases c a, fun _ _ _ _ => parsesTo_unique, fun ev v h => ?_, ?_, ?_, ?_,
    digits2_bcd_eq_some_iff, digits2_divmod_eq_some_iff⟩
  · have hok := parseEvent_ne_error_of_parsesTo h
    exact ⟨fun h' => hok _ (parseInvalidResponse_iff.1 h'), fun h' => hok _ (parseInvalidAddress_iff.1 h'),
      fun h' => hok _ (parseUnknownGroup_iff.1 h')⟩
  · rintro ⟨hresponse, haddress⟩
    exact nomatch parseEvent_fault_unique (parseInvalidResponse_iff.1 hresponse) (parseInvalidAddress_iff.1 haddress)
  · rintro ⟨hresponse, hgroup⟩
    exact nomatch parseEvent_fault_unique (parseInvalidResponse_iff.1 hresponse) (parseUnknownGroup_iff.1 hgroup)
  · rintro ⟨haddress, hgroup⟩
    exact nomatch parseEvent_fault_unique (parseInvalidAddress_iff.1 haddress) (parseUnknownGroup_iff.1 hgroup)

/-! ### A parse for the host -/

/-- A read that parses is answered with its event, and its version byte becomes `RXVER` (R222, R224, R98). -/
theorem receive_of_parsesTo {a : Option Bytes} {s : State} {ev : Event} {v : Byte} (h : ParsesTo s.cfg a ev v) :
    receive a s = { answered s (0x00 :: eventLayout ev) with rxver := some v } := by
  rw [receive, parsesTo_iff.1 h, ← eventBytes_eq_eventLayout]
  rfl

/-- A read that does not parse is answered with its fault and nothing is written (R222, R224). -/
theorem receive_of_fault {a : Option Bytes} {s : State} {f : FaultKind} (h : parseEvent s.cfg a = .error f) :
    receive a s = answered s [faultByte f] := by
  rw [receive, h]
  rfl

/-- `RX.PARSE` is the parse of its operand (R222). -/
theorem exec_rxParse (bytes : Bytes) (s : State) :
    exec (.rxParse bytes) s = .next (receive (some bytes) s) := rfl

/-- An operand that parses: the event, and the version byte becomes `RXVER` (R222). -/
theorem exec_rxParse_of_parsesTo {bytes : Bytes} {s : State} {ev : Event} {v : Byte}
    (h : ParsesTo s.cfg (some bytes) ev v) :
    exec (.rxParse bytes) s = .next { answered s (0x00 :: eventLayout ev) with rxver := some v } := by
  rw [exec_rxParse, receive_of_parsesTo h]

/-- An operand that does not parse: the fault (R222). -/
theorem exec_rxParse_of_fault {bytes : Bytes} {s : State} {f : FaultKind}
    (h : parseEvent s.cfg (some bytes) = .error f) :
    exec (.rxParse bytes) s = .next (answered s [faultByte f]) := by
  rw [exec_rxParse, receive_of_fault h]

/-- Settles O36: the parse of the operand, outcome by outcome. -/
theorem rxParseAnswer : Obligations.RxParseAnswer := by
  unfold Obligations.RxParseAnswer
  exact fun s bytes => ⟨fun _ _ => exec_rxParse_of_parsesTo,
    fun h => exec_rxParse_of_fault (parseInvalidResponse_iff.1 h),
    fun h => exec_rxParse_of_fault (parseInvalidAddress_iff.1 h),
    fun h => exec_rxParse_of_fault (parseUnknownGroup_iff.1 h)⟩

/-- `RX.POLL` reads once and parses the answer (R225). -/
theorem exec_rxPoll (s : State) : exec .rxPoll s = .next (receive (rxAnswer s) (afterRxRead s)) := rfl

/-- One result after a read of the receive adapter. -/
theorem answered_afterRxRead (s : State) (q : Bytes) : answered (afterRxRead s) q = polled s [.res q] := by
  simp only [answered, afterRxRead_trace, List.append_assoc, List.singleton_append]
  rfl

/-- A poll that parses: the read, then the event, and the version byte becomes `RXVER` (R225). -/
theorem exec_rxPoll_of_parsesTo {s : State} {ev : Event} {v : Byte} (h : ParsesTo s.cfg (rxAnswer s) ev v) :
    exec .rxPoll s = .next { polled s [.res (0x00 :: eventLayout ev)] with rxver := some v } := by
  rw [exec_rxPoll, receive_of_parsesTo (s := afterRxRead s) h, answered_afterRxRead]

/-- A poll that does not parse: the read, then the fault (R225). -/
theorem exec_rxPoll_of_fault {s : State} {f : FaultKind} (h : parseEvent s.cfg (rxAnswer s) = .error f) :
    exec .rxPoll s = .next (polled s [.res [faultByte f]]) := by
  rw [exec_rxPoll, receive_of_fault (s := afterRxRead s) h, answered_afterRxRead]

/-- Settles O37: the parse of the adapter's answer, outcome by outcome. -/
theorem rxPollAnswer : Obligations.RxPollAnswer := by
  unfold Obligations.RxPollAnswer
  exact fun s => ⟨fun _ _ => exec_rxPoll_of_parsesTo,
    fun h => exec_rxPoll_of_fault (parseInvalidResponse_iff.1 h),
    fun h => exec_rxPoll_of_fault (parseInvalidAddress_iff.1 h),
    fun h => exec_rxPoll_of_fault (parseUnknownGroup_iff.1 h)⟩

/-- `RX.VER` answers what the version cell holds (R226). -/
theorem exec_rxVer (s : State) :
    exec .rxVer s = .next (answer (s.rxver.elim (.error .versionNotYetKnown) fun v => .ok [v]) s) := by
  cases hver : s.rxver <;> simp [exec, execRxVer, hver]

/-- Settles O38: the two states of the version cell. -/
theorem rxVerAnswer : Obligations.RxVerAnswer := by
  unfold Obligations.RxVerAnswer
  refine fun s => ⟨fun v hver => ?_, fun hver => ?_⟩
  · rw [exec_rxVer, hver]
    rfl
  · rw [exec_rxVer, hver]
    rfl

/-! ### The time of an event -/

/-- A decimal digit is at most 9. -/
theorem digitAt_le (qs : List (Fin 10 × Fin 10)) (k : Nat) : digitAt qs k ≤ 9 := by
  simp only [digitAt]
  split <;> omega

/-- Five decimal digits count at most 99999 quarter-steps (R108 (c)). -/
theorem quarterSteps_le (qs : List (Fin 10 × Fin 10)) : quarterSteps qs ≤ 99999 := by
  have := digitAt_le qs 15
  have := digitAt_le qs 16
  have := digitAt_le qs 17
  have := digitAt_le qs 18
  have := digitAt_le qs 19
  simp only [quarterSteps]
  omega

/-- The time of an event fits a `Dur` and is not negative there: the largest is 24 999 750 ms (R223). -/
theorem toInt_quarterSteps (qs : List (Fin 10 × Fin 10)) :
    (BitVec.ofNat 32 (250 * quarterSteps qs) : Dur).toInt = 250 * quarterSteps qs := by
  have hbound := quarterSteps_le qs
  have hnat : (BitVec.ofNat 32 (250 * quarterSteps qs) : Dur).toNat = 250 * quarterSteps qs :=
    Nat.mod_eq_of_lt (by omega)
  rw [BitVec.toInt_eq_toNat_of_lt (by omega), hnat]
  exact Nat.cast_mul 250 (quarterSteps qs)

/-- The version byte and the time of a parse are those of its reading (R222, R223). -/
theorem parseEvent_time {c : Cfg} {a : Option Bytes} {qs : List (Fin 10 × Fin 10)} {ev : Event} {v w : Byte}
    (hread : EventRead c a qs w) (hparse : parseEvent c a = .ok (ev, v)) :
    v = w ∧ ev.time = if timedFlag qs then some (BitVec.ofNat 32 (250 * quarterSteps qs)) else none := by
  obtain ⟨qs', row, hread', -, -, rfl⟩ := parsesTo_of_parseEvent hparse
  obtain ⟨rfl, rfl⟩ := eventRead_unique hread hread'
  exact ⟨rfl, rfl⟩

/-- Settles O39: the time of the parse by its flag digit, and its value as an integer (`toInt_quarterSteps`). -/
theorem timedExactlyWhenFlagIsOne : Obligations.TimedExactlyWhenFlagIsOne := by
  unfold Obligations.TimedExactlyWhenFlagIsOne
  intro c a qs ev v w hread hparse
  obtain ⟨hversion, htime⟩ := parseEvent_time hread hparse
  refine ⟨hversion, fun hflag => ⟨_, ?_, toInt_quarterSteps qs⟩, fun hflag => ?_⟩
  · rw [htime, timedFlag, hflag]
    rfl
  · rw [htime, timedFlag, beq_false_of_ne hflag]
    rfl

/-! ### The version cell -/

/-- A host operation leaves the version cell, or it is a parse that returned an event, whose version byte it wrote
(R224). -/
theorem exec_rxver {i : Instr} {s t : State} (h : exec i s = .next t) :
    t.rxver = s.rxver ∨
      (∃ bytes ev v, i = .rxParse bytes ∧ ParsesTo s.cfg (some bytes) ev v ∧ t.rxver = some v) ∨
      (∃ ev v, i = .rxPoll ∧ ParsesTo s.cfg (rxAnswer s) ev v ∧ t.rxver = some v) := by
  cases i <;> obtain rfl := Host.Outcome.next.inj h
  case rxParse bytes =>
    rcases receive_rxver (a := some bytes) (s := s) with hkept | ⟨ev, v, hwritten, hparses⟩
    · exact .inl hkept
    · exact .inr (.inl ⟨bytes, ev, v, rfl, hparses, hwritten⟩)
  case rxPoll =>
    rcases receive_rxver (a := rxAnswer s) (s := afterRxRead s) with hkept | ⟨ev, v, hwritten, hparses⟩
    · exact .inl hkept
    · exact .inr (.inr ⟨ev, v, rfl, hparses, hwritten⟩)
  case txOnce | txRep | txStop | txVer => exact .inl (transmit_rxver _ _ s)
  case dspAdd | dspStart => left; split <;> rfl
  all_goals exact .inl rfl

/-- A stop request that is observed leaves the version cell (R247). -/
theorem dispatcherStep_rxver_of_stopReq {s : State} (hstop : s.stopReq = true) :
    (dispatcherStep s).rxver = s.rxver := by
  rw [dispatcherStep, if_pos hstop, observeStop_rxver]

/-- Without a stop request the dispatcher's step reads once and acts on the parse (R247). -/
theorem dispatcherStep_of_no_stopReq {s : State} (hstop : s.stopReq = false) :
    dispatcherStep s = pollOutcome (parseEvent s.cfg (rxAnswer s)) (afterRxRead s) := by
  rw [dispatcherStep, hstop]
  rfl

/-- A parse that faults leaves the version cell, whether the poll loop goes on or ends (R224, R247). -/
theorem pollOutcome_error_rxver (f : FaultKind) (s : State) : (pollOutcome (.error f) s).rxver = s.rxver := by
  cases f <;> rfl

/-- Settles O40: `RX.PARSE` and `RX.POLL` by their answers, every other operation by `exec_rxver`, and the dispatcher's
step by what its parse returns. -/
theorem versionCellWrittenOnSuccessOnly : Obligations.VersionCellWrittenOnSuccessOnly := by
  unfold Obligations.VersionCellWrittenOnSuccessOnly
  refine ⟨fun s t i hexec => ⟨?_, ?_, fun hnoParse hnoPoll => ?_⟩,
    fun s => ⟨dispatcherStep_rxver_of_stopReq, fun hstop => ?_⟩⟩
  · rintro bytes ev v rfl hparses
    obtain rfl := Host.Outcome.next.inj ((exec_rxParse_of_parsesTo hparses).symm.trans hexec)
    rfl
  · rintro ev v rfl hparses
    obtain rfl := Host.Outcome.next.inj ((exec_rxPoll_of_parsesTo hparses).symm.trans hexec)
    rfl
  · rcases exec_rxver hexec with hkept | ⟨bytes, ev, v, hi, hparses, -⟩ | ⟨ev, v, hi, hparses, -⟩
    · exact hkept
    · exact absurd hparses (hnoParse bytes ev v hi)
    · exact absurd hparses (hnoPoll ev v hi)
  · rw [dispatcherStep_of_no_stopReq hstop]
    refine ⟨fun ev v hparses => ?_, fun hnone => ?_⟩
    · rw [parsesTo_iff.1 hparses]
      rfl
    · rcases hparse : parseEvent s.cfg (rxAnswer s) with f | ⟨ev, v⟩
      · exact pollOutcome_error_rxver f (afterRxRead s)
      · exact absurd (parsesTo_iff.2 hparse) (hnone ev v)

end Sys2Proof.Machine

/-! The dispatcher: the host operations on the listener table, the run flags and the status word, the order of one
dispatch, the dispatcher's turn, and the invariant of the block (45_dispatcher.md R241 to R251; 10_state.md R42). -/

namespace Sys2Proof.Machine

/-! ### The invariant of the block -/

/-- Settles O51, agent by agent: an operation, a rejected packet, a dispatcher turn and a `RESET` each keep the
invariant, which does not look at the agenda. -/
theorem stepKeepsInvariant : Obligations.StepKeepsInvariant := by
  unfold Obligations.StepKeepsInvariant
  intro s t hinv h
  rcases step_cases h with ⟨-, rfl⟩ | ⟨turn, rest, -, hturn⟩
  · exact hinv
  · have hrest : BlockInv { s with agenda := rest } := blockInv_withAgenda hinv
    rcases hturn with ⟨p, i, -, -, hexec⟩ | ⟨p, e, -, -, rfl⟩ | ⟨-, rfl⟩ | ⟨-, rfl⟩
    · exact exec_inv hrest hexec
    · exact blockInv_raise hrest
    · exact dispatcherTurn_inv hrest
    · exact blockInv_resetEvent _

/-! ### Delivery -/

/-- The two bytes of a number cut to 16 bits are bits 15:8 and 7:0 of the number (R9, R95). -/
theorem be16Bytes_ofNat (n : Nat) : be16Bytes (BitVec.ofNat 16 n) = bigEndian2 n := by
  rw [be16Bytes_eq_bigEndian2, BitVec.toNat_ofNat]
  simp only [bigEndian2, List.cons.injEq, and_true]
  constructor <;> (apply BitVec.eq_of_toNat_eq; simp only [BitVec.toNat_ofNat]; omega)

/-- A dispatch adds the deliveries of the registry to the history and does nothing else (R245, R37). -/
theorem dispatch_eq_deliveries (ev : Event) (s : State) :
    dispatch ev s = { s with trace := s.trace ++ deliveries s.lis ev } := by
  rw [← matching_map_eq_deliveries]
  rfl

/-- There is one callback per entry invoked (R245). -/
theorem length_matching (lis : List Listener) (ev : Event) :
    (matching lis ev).length = (deliveries lis ev).length := by
  rw [← matching_map_eq_deliveries, List.length_map]

/-- `DSP.EMIT` dispatches its event, then answers the number of callbacks (R246). -/
theorem exec_dspEmit (a : Bytes3) (opcode : Byte) (cid : Half) (tv : Bool) (dur : Dur) (s : State) :
    exec (.dspEmit a opcode cid tv dur) s =
      .next (answer (.ok (countBytes (matching s.lis (emittedEvent a opcode cid tv dur)).length))
        (dispatch (emittedEvent a opcode cid tv dur) s)) := rfl

/-- `DSP.EMIT` by the registry: the deliveries of its event, then their number, saturated (R246, R42). -/
theorem exec_dspEmit_eq_deliveries (a : Bytes3) (opcode : Byte) (cid : Half) (tv : Bool) (dur : Dur) (s : State) :
    exec (.dspEmit a opcode cid tv dur) s =
      .next { s with trace := s.trace ++ deliveries s.lis (emittedEvent a opcode cid tv dur) ++
        [.res (0x00 :: bigEndian2 (min (deliveries s.lis (emittedEvent a opcode cid tv dur)).length 65535))] } := by
  rw [exec_dspEmit, length_matching, countBytes, be16Bytes_ofNat, answer_ok_eq, dispatch_eq_deliveries]
  rfl

/-- Settles O44: the deliveries by the registry are those of the table scan (`matching_map_eq_deliveries`). -/
theorem dspEmitAnswer : Obligations.DspEmitAnswer := by
  unfold Obligations.DspEmitAnswer
  rintro s a opcode cid tv dur ev rfl
  exact exec_dspEmit_eq_deliveries a opcode cid tv dur s

/-- Four listeners, one per tier and registered least specific first, stand under one key of the event each, so they
are delivered to in the order of the keys (R248). -/
theorem deliveries_of_one_per_tier (ev : Event) :
    deliveries [⟨1, false, ⟨0, 0, 0⟩, false, 0⟩, ⟨2, false, ⟨0, 0, 0⟩, true, ev.opcode⟩,
        ⟨3, true, ev.addr, false, 0⟩, ⟨4, true, ev.addr, true, ev.opcode⟩] ev =
      [.cb 4 ev, .cb 3 ev, .cb 2 ev, .cb 1 ev] := by
  simp [deliveries, eventKeys, listenerKey]

/-- Settles O49, from the answer of `DSP.EMIT` and the deliveries to one listener per tier. -/
theorem fourTiersMostSpecificFirst : Obligations.FourTiersMostSpecificFirst := by
  unfold Obligations.FourTiersMostSpecificFirst
  intro s a opcode cid tv dur hlis
  refine ⟨emittedEvent a opcode cid tv dur, _, exec_dspEmit_eq_deliveries a opcode cid tv dur s, ?_⟩
  have hcallbacks := hlis ▸ deliveries_of_one_per_tier (emittedEvent a opcode cid tv dur)
  have hcount : bigEndian2 4 = [0x00, 0x04] := by decide
  simp [hcallbacks, hcount]

/-! ### The order of a dispatch -/

/-- What the scan of one tier collects is of that tier (R245). -/
theorem tier_of_mem_tierScan {lis : List Listener} {ev : Event} {t : Nat} {e : Listener}
    (he : e ∈ lis.filter fun e => tier e == t && listens e ev) : tier e = t := by
  have hscan := (List.mem_filter.1 he).2
  exact beq_iff_eq.1 (Bool.and_eq_true_iff.1 hscan).1

/-- The entries a dispatch invokes are the matching ones, each as often as the table holds it: within the tier of each
entry the two lists agree (R245). -/
theorem matching_perm (lis : List Listener) (ev : Event) :
    (matching lis ev).Perm (lis.filter fun e => listens e ev) := by
  refine List.perm_iff_count.2 fun e => ?_
  have hown (l : List Listener) : (l.filter fun e' => tier e' == tier e).count e = l.count e :=
    List.count_filter (beq_self_eq_true (tier e))
  calc (matching lis ev).count e
      _ = ((matching lis ev).filter fun e' => tier e' == tier e).count e := (hown _).symm
      _ = ((lis.filter fun e' => listens e' ev).filter fun e' => tier e' == tier e).count e := by
        rw [matching_filter_tier]
      _ = (lis.filter fun e' => listens e' ev).count e := hown _

/-- No entry is invoked before one of a more specific tier: the tiers are scanned in increasing order (R245). -/
theorem matching_pairwise_tier (lis : List Listener) (ev : Event) :
    (matching lis ev).Pairwise fun e e' => tier e ≤ tier e' := by
  have hscans : [0, 1, 2, 3].Pairwise (· < ·) := by decide
  refine List.pairwise_flatMap.2 ⟨fun t _ => ?_, hscans.imp fun hlt e he e' he' => ?_⟩
  · exact List.pairwise_of_forall_mem_list fun e he e' he' =>
      (tier_of_mem_tierScan he).trans_le (tier_of_mem_tierScan he').ge
  · rw [tier_of_mem_tierScan he, tier_of_mem_tierScan he']
    exact hlt.le

/-- Settles O47: the permutation, the order of the tiers, and the order within a tier (`matching_filter_tier`). -/
theorem dispatchOrder : Obligations.DispatchOrder := by
  unfold Obligations.DispatchOrder
  exact fun lis ev => ⟨matching_perm lis ev, matching_pairwise_tier lis ev, matching_filter_tier lis ev⟩

/-! ### The dispatcher's turn -/

/-- A dispatcher turn at the head of the agenda is one turn of the agent, on the state without it (R72). -/
theorem step_dispatcher {s : State} {rest : List Turn} (hagenda : s.agenda = .dispatcher :: rest) :
    step s = .next (dispatcherTurn { s with agenda := rest }) := step_of_agenda_cons hagenda

/-- A dispatcher that is not `Running` takes no step (R247; assumption log 2). -/
theorem dispatcherTurn_of_stopped {s : State} (hrun : s.run = false) : dispatcherTurn s = s := by
  rw [dispatcherTurn, hrun]
  rfl

/-- A running dispatcher with a stop request observes it, and reads nothing (R247). -/
theorem dispatcherTurn_of_stopReq {s : State} (hrun : s.run = true) (hstop : s.stopReq = true) :
    dispatcherTurn s = observeStop s := by
  rw [dispatcherTurn, if_pos hrun, dispatcherStep, if_pos hstop]

/-- A running dispatcher without a stop request reads once and acts on the parse (R247). -/
theorem dispatcherTurn_of_polling {s : State} (hrun : s.run = true) (hstop : s.stopReq = false) :
    dispatcherTurn s = pollOutcome (parseEvent s.cfg (rxAnswer s)) (afterRxRead s) := by
  rw [dispatcherTurn, if_pos hrun, dispatcherStep_of_no_stopReq hstop]

/-- Port events after a read of the receive adapter. -/
theorem emit_afterRxRead (es : List PortEvent) (s : State) : emit es (afterRxRead s) = polled s es := by
  simp only [emit, afterRxRead_trace, List.append_assoc, List.singleton_append]
  rfl

/-- An event is recorded and delivered (R247). -/
theorem pollOutcome_event (ev : Event) (v : Byte) (s : State) :
    pollOutcome (.ok (ev, v)) (afterRxRead s) = { polled s (deliveries s.lis ev) with rxver := some v } := by
  rw [← emit_afterRxRead, ← matching_map_eq_deliveries]
  rfl

/-- Settles O46: the three kinds of turn, and for a poll the four outcomes of its parse. -/
theorem dispatcherStepBranches : Obligations.DispatcherStepBranches := by
  unfold Obligations.DispatcherStepBranches
  intro s rest hagenda
  rw [step_dispatcher hagenda]
  refine ⟨fun hrun => ?_, fun hrun hstop => ?_, fun hrun hstop => ?_⟩
  · exact congrArg Host.Outcome.next (dispatcherTurn_of_stopped hrun)
  · exact congrArg Host.Outcome.next (dispatcherTurn_of_stopReq hrun hstop)
  · have hpoll : dispatcherTurn { s with agenda := rest } =
        pollOutcome (parseEvent s.cfg (rxAnswer s)) (afterRxRead { s with agenda := rest }) :=
      dispatcherTurn_of_polling hrun hstop
    rw [hpoll]
    refine ⟨fun ev v hparses => ?_, fun hfault => ?_, fun hfault => ?_, fun hfault => ?_⟩
    · rw [parsesTo_iff.1 hparses, pollOutcome_event]
      rfl
    · rw [parseInvalidResponse_iff.1 hfault]
      rfl
    · rw [parseInvalidAddress_iff.1 hfault]
      rfl
    · rw [parseUnknownGroup_iff.1 hfault]
      rfl

/-! ### The host operations of the dispatcher -/

/-- `DSP.ADD` with a free entry: the listener goes to the end and its index is the answer (R241). -/
theorem exec_dspAdd_of_free {s : State} (hfree : tableFull s = false) (cb : Half) (aen cen : Bool) (a : Bytes3)
    (cmd : Byte) :
    exec (.dspAdd cb aen cen a cmd) s = .next (answer (.ok (be16Bytes (BitVec.ofNat 16 (lcount s))))
      (appendListener { cb, aen, addr := a, cen, cmd } s)) := by
  rw [exec, execDspAdd, hfree]
  rfl

/-- `DSP.ADD` with a full table: the fault, and nothing is written (R241). -/
theorem exec_dspAdd_of_full {s : State} (hfull : tableFull s = true) (cb : Half) (aen cen : Bool) (a : Bytes3)
    (cmd : Byte) : exec (.dspAdd cb aen cen a cmd) s = .next (answered s [0x0C]) := by
  rw [exec, execDspAdd, if_pos hfull]
  rfl

/-- A table with fewer entries than its capacity, if it has one, has a free entry (R241). -/
theorem tableFull_eq_false {s : State} (hfree : ∀ n, s.cfg.nlis = some n → s.lis.length < n) :
    tableFull s = false := by
  refine Bool.eq_false_iff.2 fun hfull => ?_
  obtain ⟨n, hn, hle⟩ := (tableFull_iff s).1 hfull
  exact absurd (hfree n hn) (Nat.not_lt.2 hle)

/-- Settles O41: the two states of the listener table. -/
theorem dspAddAnswer : Obligations.DspAddAnswer := by
  unfold Obligations.DspAddAnswer
  refine fun s cb aen cen a cmd => ⟨fun hfree => ?_, fun n hn hle => ?_⟩
  · rw [exec_dspAdd_of_free (tableFull_eq_false hfree), be16Bytes_ofNat]
    rfl
  · exact exec_dspAdd_of_full ((tableFull_iff s).2 ⟨n, hn, hle⟩) cb aen cen a cmd

/-- `DSP.START` of a stopped dispatcher (R243). -/
theorem exec_dspStart_of_stopped {s : State} (hrun : s.run = false) :
    exec .dspStart s = .next { answered s [0x00] with run := true, stopReq := false, dfault := 0 } := by
  rw [exec, execDspStart, hrun]
  rfl

/-- `DSP.START` of a running dispatcher (R243). -/
theorem exec_dspStart_of_running {s : State} (hrun : s.run = true) :
    exec .dspStart s = .next (answered s [0x0C]) := by
  rw [exec, execDspStart, if_pos hrun]
  rfl

/-- Settles O42: the two states of the dispatcher. -/
theorem dspStartAnswer : Obligations.DspStartAnswer := by
  unfold Obligations.DspStartAnswer
  exact fun s => ⟨exec_dspStart_of_stopped, exec_dspStart_of_running⟩

/-- A running dispatcher gets the stop request (R244). -/
theorem requestStop_of_running {s : State} (hrun : s.run = true) : requestStop s = { s with stopReq := true } := by
  cases s
  cases hrun
  rfl

/-- A stopped dispatcher is left as it is (R244). -/
theorem requestStop_of_stopped {s : State} (hrun : s.run = false) : requestStop s = s := by
  cases s
  cases hrun
  rfl

/-- `DSP.STOP` requests the stop and is always answered with a success (R244). -/
theorem exec_dspStop (s : State) : exec .dspStop s = .next (answered (requestStop s) [0x00]) := rfl

/-- `DSP.STOP` of a running dispatcher (R244). -/
theorem exec_dspStop_of_running {s : State} (hrun : s.run = true) :
    exec .dspStop s = .next { answered s [0x00] with stopReq := true } := by
  rw [exec_dspStop, requestStop_of_running hrun]
  rfl

/-- `DSP.STOP` of a stopped dispatcher (R244). -/
theorem exec_dspStop_of_stopped {s : State} (hrun : s.run = false) :
    exec .dspStop s = .next (answered s [0x00]) := by
  rw [exec_dspStop, requestStop_of_stopped hrun]

/-- Settles O43: the two states of the dispatcher. -/
theorem dspStopAnswer : Obligations.DspStopAnswer := by
  unfold Obligations.DspStopAnswer
  exact fun s => ⟨exec_dspStop_of_running, exec_dspStop_of_stopped⟩

/-- Settles O50: the two operations by their answers, every other one by `exec_flags`. -/
theorem hostOperationsDriveStateMachine : Obligations.HostOperationsDriveStateMachine := by
  unfold Obligations.HostOperationsDriveStateMachine
  refine fun s t i hexec => ⟨?_, ?_, fun hnoStart hnoStop => ?_⟩
  · rintro rfl
    rcases hrun : s.run with _ | _
    · obtain rfl := Host.Outcome.next.inj ((exec_dspStart_of_stopped hrun).symm.trans hexec)
      rfl
    · obtain rfl := Host.Outcome.next.inj ((exec_dspStart_of_running hrun).symm.trans hexec)
      rfl
  · rintro rfl
    rcases hrun : s.run with _ | _
    · obtain rfl := Host.Outcome.next.inj ((exec_dspStop_of_stopped hrun).symm.trans hexec)
      rfl
    · obtain rfl := Host.Outcome.next.inj ((exec_dspStop_of_running hrun).symm.trans hexec)
      exact congrArg (·, true, s.dfault) hrun
  · rcases exec_flags hexec with hkept | ⟨hstart, -⟩ | ⟨hstop, -⟩
    · exact hkept
    · exact absurd hstart hnoStart
    · exact absurd hstop hnoStop

/-! ### The status word -/

/-- `SYS.STAT` answers the status word and does nothing else (R249). -/
theorem exec_sysStat (s : State) : exec .sysStat s = .next (answered s (0x00 :: statusBytes s)) := rfl

/-- Settles O45: the flags byte by its bits (`statusByte0_eq`), the version byte, and the saturated count. -/
theorem sysStatAnswer : Obligations.SysStatAnswer := by
  unfold Obligations.SysStatAnswer
  intro s
  rw [exec_sysStat, statusBytes, statusByte0_eq, countBytes, be16Bytes_ofNat]
  rfl

end Sys2Proof.Machine

/-! Faults of the operations: which codes an operation answers with, what a faulting operation leaves unchanged, and
the port transfers it can have made before its fault (60_exceptions.md R271, R284, R287). -/

namespace Sys2Proof.Machine

/-! ### The effect of a fault -/

/-- An operation whose last event is a fault code ended with that fault: the code is one of its row, and the state,
the history apart, is as before (R284, R287). -/
theorem exec_fault_effect {i : Instr} {s t : State} {code : Byte} (hexec : exec i s = .next t)
    (hlast : t.trace.getLast? = some (.res [code])) (hcode : code ≠ 0x00) :
    code ∈ faultCodesOf i ∧ SameState s t ∧ t.cfg = s.cfg := by
  obtain ⟨es, r, effect⟩ := exec_effect i s t hexec
  have hpacket : resultPacket r = [code] := by simpa [effect.trace] using hlast
  obtain ⟨f, hfault, rfl⟩ := resultPacket_singleton hpacket hcode
  obtain ⟨hsame, hrow⟩ := effect.fault f hfault
  exact ⟨hrow, hsame, effect.cfg⟩

/-- Settles O58, from the effect of a fault. -/
theorem faultsPerOperation : Obligations.FaultsPerOperation := by
  unfold Obligations.FaultsPerOperation
  exact fun s t i code hexec hlast hcode => (exec_fault_effect hexec hlast hcode).1

/-! ### The port transfers before a result -/

/-- From `s` to `t` the operation `i` added to the history its result `q`, and before it at most the exchange of a
transmit operation or the read of `RX.POLL` (R199, R225, R287). -/
def TransfersThenResult (i : Instr) (s t : State) (q : Bytes) : Prop :=
  t.trace = s.trace ++ [.res q] ∨
    (exchanges i = true ∧ ∃ f, t.trace = s.trace ++ [.txw f, .txr (txAnswer s), .res q]) ∨
    (i = .rxPoll ∧ t.trace = s.trace ++ [.rxr (rxAnswer s), .res q])

/-- The result comes last (R94). -/
theorem TransfersThenResult.getLast? {i : Instr} {s t : State} {q : Bytes} (h : TransfersThenResult i s t q) :
    t.trace.getLast? = some (.res q) := by
  rcases h with htrace | ⟨-, f, htrace⟩ | ⟨-, htrace⟩ <;> simp [htrace]

/-- A transmit operation answers at once when it has no frame, and after the exchange when it has one (R199, R201). -/
theorem transfersThenResult_transmit {i : Instr} (hi : exchanges i = true) (frame : Result Bytes)
    (payload : AckClass × Byte → Result Bytes) (s : State) :
    ∃ q, TransfersThenResult i s (transmit frame payload s) q := by
  rcases frame with f | f
  · exact ⟨_, .inl rfl⟩
  · exact ⟨_, .inr (.inl ⟨hi, f, congrArg State.trace transmit_ok⟩)⟩

/-- `RX.POLL` reads once, and its parse adds the result alone (R225). -/
theorem transfersThenResult_rxPoll (s : State) :
    ∃ q, TransfersThenResult .rxPoll s (receive (rxAnswer s) (afterRxRead s)) q := by
  obtain ⟨q, hparse⟩ := receive_trace_append (rxAnswer s) (afterRxRead s)
  exact ⟨q, .inr (.inr ⟨rfl, by simp [hparse]⟩)⟩

/-- Every operation but `DSP.EMIT`, which adds callbacks and never faults, adds no more than its transfers and its
result (R287). -/
theorem exec_transfersThenResult {i : Instr} {s t : State} (hexec : exec i s = .next t)
    (hemit : ∀ a opcode cid tv dur, i ≠ .dspEmit a opcode cid tv dur) : ∃ q, TransfersThenResult i s t q := by
  cases i <;> obtain rfl := Host.Outcome.next.inj hexec
  case txOnce | txRep | txStop | txVer => exact transfersThenResult_transmit rfl _ _ s
  case rxParse bytes =>
    obtain ⟨q, hparse⟩ := receive_trace_append (some bytes) s
    exact ⟨q, .inl hparse⟩
  case rxPoll => exact transfersThenResult_rxPoll s
  case dspAdd | dspStart => split <;> exact ⟨_, .inl rfl⟩
  case dspEmit => exact absurd rfl (hemit _ _ _ _ _)
  all_goals exact ⟨_, .inl rfl⟩

/-- An operation that can fault is not `DSP.EMIT`: its row of the fault table is empty (R284). -/
theorem ne_dspEmit_of_mem_faultCodesOf {i : Instr} {code : Byte} (h : code ∈ faultCodesOf i) (a : Bytes3)
    (opcode : Byte) (cid : Half) (tv : Bool) (dur : Dur) : i ≠ .dspEmit a opcode cid tv dur := by
  rintro rfl
  exact List.not_mem_nil h

/-- Settles O57: the state by the effect of a fault; the history because an operation that faults is not `DSP.EMIT`,
and the result it ends with is the fault. -/
theorem faultingOperationWritesNoState : Obligations.FaultingOperationWritesNoState := by
  unfold Obligations.FaultingOperationWritesNoState
  intro s t i code hexec hlast hcode
  obtain ⟨hrow, ⟨hrun, hstop, hdfault, hrxver, hlis⟩, hcfg⟩ := exec_fault_effect hexec hlast hcode
  obtain ⟨q, hadded⟩ := exec_transfersThenResult hexec (ne_dspEmit_of_mem_faultCodesOf hrow)
  obtain rfl : q = [code] := by simpa [hlast] using hadded.getLast?.symm
  exact ⟨⟨hrun, hstop, hdfault, hrxver, hlis, hcfg⟩, hadded⟩

end Sys2Proof.Machine

/-! `RESET` and what every step keeps: a step always completes and takes one turn off the agenda, only `RESET` forgets,
and a stop lasts until a `DSP.START` (70_reset_and_hazards.md R300 to R311). -/

namespace Sys2Proof.Machine

/-! ### Completion -/

/-- With no turn pending the block is idle (R301; assumption log 2). -/
theorem step_of_agenda_nil {s : State} (h : s.agenda = []) : step s = .next s := by
  simp only [step, h]

/-- Settles O6, by `step_of_agenda_nil`. -/
theorem emptyAgendaIsIdle : Obligations.EmptyAgendaIsIdle := by
  unfold Obligations.EmptyAgendaIsIdle
  exact fun s => step_of_agenda_nil

/-- Settles O7: the step is the environment's turn, which is the `RESET` event on the state without that turn. -/
theorem resetTurnGivesResetValues : Obligations.ResetTurnGivesResetValues := by
  unfold Obligations.ResetTurnGivesResetValues
  intro s rest hagenda
  calc step s
      _ = takeTurn .reset { s with agenda := rest } := step_of_agenda_cons hagenda
      _ = .next (resetEvent { s with agenda := rest }) := rfl

/-- Every turn can be taken: a packet that passes the check runs an operation, which answers a next state
(`exec_next`), and any other packet is answered with a fault (R78, R93, R310). -/
theorem takeTurn_next (turn : Turn) (s : State) : ∃ t, takeTurn turn s = .next t := by
  cases turn with
  | host p =>
    rcases hdecode : decode p with e | i
    · exact ⟨_, hostTurn_of_decode_error hdecode s⟩
    · obtain ⟨t, hexec⟩ := exec_next i s
      exact ⟨t, (hostTurn_of_decode_ok hdecode s).trans hexec⟩
  | dispatcher => exact ⟨dispatcherTurn s, rfl⟩
  | reset => exact ⟨resetEvent s, rfl⟩

/-- Settles O9: an empty agenda idles, and the first turn of any other can be taken. -/
theorem everyStepCompletes : Obligations.EveryStepCompletes := by
  unfold Obligations.EveryStepCompletes
  intro s
  rcases hagenda : s.agenda with _ | ⟨turn, rest⟩
  · exact ⟨s, step_of_agenda_nil hagenda⟩
  · obtain ⟨t, hturn⟩ := takeTurn_next turn { s with agenda := rest }
    exact ⟨t, (step_of_agenda_cons hagenda).trans hturn⟩

/-- As every step completes, `afterStep` never falls back on the state it started from. -/
theorem step_eq_next_afterStep (s : State) : step s = .next (afterStep s) := by
  obtain ⟨t, hstep⟩ := everyStepCompletes s
  rw [afterStep_eq hstep, hstep]

/-! ### What only `RESET` forgets -/

/-- From `s` to `t` no listener was removed, a known version was not forgotten and the history was not truncated
(R303). -/
structure Remembers (s t : State) : Prop where
  lis : s.lis <+: t.lis
  rxver : s.rxver.isSome → t.rxver.isSome
  trace : s.trace <+: t.trace

/-- A state remembers itself. -/
theorem Remembers.refl (s : State) : Remembers s s := ⟨List.prefix_rfl, id, List.prefix_rfl⟩

/-- What two steps in a row each remember, they remember together. -/
theorem Remembers.trans {s t u : State} (hst : Remembers s t) (htu : Remembers t u) : Remembers s u :=
  ⟨hst.lis.trans htu.lis, htu.rxver ∘ hst.rxver, hst.trace.trans htu.trace⟩

/-- Events added to the history forget nothing (R38). -/
theorem remembers_emit (es : List PortEvent) (s : State) : Remembers s (emit es s) :=
  ⟨List.prefix_rfl, id, List.prefix_append _ _⟩

/-- A read of the receive adapter adds to the history only (R13). -/
theorem remembers_afterRxRead (s : State) : Remembers s (afterRxRead s) :=
  ⟨List.prefix_rfl, id, List.prefix_append _ _⟩

/-- An operation forgets nothing: `DSP.ADD` adds at the end of the table (`exec_lis`), a parse that writes the version
cell makes it known (`exec_rxver`), and the history grows (`exec_effect`). -/
theorem exec_remembers {i : Instr} {s t : State} (h : exec i s = .next t) : Remembers s t where
  lis := by
    rcases exec_lis h with hkept | ⟨-, e, hadded⟩
    · exact hkept ▸ List.prefix_rfl
    · exact hadded ▸ List.prefix_append _ _
  rxver hknown := by
    rcases exec_rxver h with hkept | ⟨_, _, v, -, -, hwritten⟩ | ⟨_, v, -, -, hwritten⟩
    · exact hkept ▸ hknown
    · exact hwritten ▸ rfl
    · exact hwritten ▸ rfl
  trace := by
    obtain ⟨es, r, effect⟩ := exec_effect i s t h
    rw [effect.trace, List.append_assoc]
    exact List.prefix_append _ _

/-- The poll loop forgets nothing: an event makes the version known and adds its callbacks to the history, and a fault
writes the run flags at most (R247). -/
theorem remembers_pollOutcome (r : Result (Event × Byte)) (s : State) : Remembers s (pollOutcome r s) := by
  rcases r with f | ⟨ev, v⟩
  · cases f <;> exact ⟨List.prefix_rfl, id, List.prefix_rfl⟩
  · have hversion : Remembers s (setRxver v s) := ⟨List.prefix_rfl, fun _ => rfl, List.prefix_rfl⟩
    exact hversion.trans (remembers_emit _ _)

/-- A dispatcher turn forgets nothing, whether it passes, observes a stop or polls (R247). -/
theorem remembers_dispatcherTurn (s : State) : Remembers s (dispatcherTurn s) := by
  rcases hrun : s.run with _ | _
  · rw [dispatcherTurn_of_stopped hrun]
    exact .refl s
  · rcases hstop : s.stopReq with _ | _
    · rw [dispatcherTurn_of_polling hrun hstop]
      exact (remembers_afterRxRead s).trans (remembers_pollOutcome _ _)
    · rw [dispatcherTurn_of_stopReq hrun hstop]
      exact ⟨List.prefix_rfl, id, List.prefix_rfl⟩

/-- A step whose turn is not a reset forgets nothing (R303). Taking the turn off the agenda touches none of the three
fields, so what is remembered from the state without it is remembered from `s`. -/
theorem step_remembers {s t : State} (h : step s = .next t) (hnoReset : s.agenda.head? ≠ some .reset) :
    Remembers s t := by
  rcases step_cases h with ⟨-, rfl⟩ | ⟨turn, rest, hagenda, hturn⟩
  · exact .refl t
  · have htaken : Remembers s { s with agenda := rest } := ⟨List.prefix_rfl, id, List.prefix_rfl⟩
    rcases hturn with ⟨p, i, -, -, hexec⟩ | ⟨p, e, -, -, rfl⟩ | ⟨-, rfl⟩ | ⟨rfl, -⟩
    · exact htaken.trans (exec_remembers hexec)
    · exact htaken.trans (remembers_emit _ _)
    · exact htaken.trans (remembers_dispatcherTurn _)
    · simp [hagenda] at hnoReset

/-- Settles O54, by `step_remembers`. -/
theorem onlyResetForgets : Obligations.OnlyResetForgets := by
  unfold Obligations.OnlyResetForgets
  intro s t h hnoReset
  obtain ⟨⟨ls, hlis⟩, hrxver, ⟨es, htrace⟩⟩ := step_remembers h hnoReset
  exact ⟨⟨ls, hlis.symm⟩, hrxver, ⟨es, htrace.symm⟩⟩

/-! ### A stop lasts until a start -/

/-- A step takes the first turn off the agenda and adds none (R72). -/
theorem step_agenda {s t : State} (h : step s = .next t) : t.agenda = s.agenda.tail := by
  rcases step_cases h with ⟨hempty, rfl⟩ | ⟨turn, rest, hagenda, hturn⟩
  · simp [hempty]
  · rw [hagenda, List.tail_cons]
    rcases hturn with ⟨p, i, -, -, hexec⟩ | ⟨p, e, -, -, rfl⟩ | ⟨-, rfl⟩ | ⟨-, rfl⟩
    · obtain ⟨es, r, effect⟩ := exec_effect i _ t hexec
      exact effect.agenda
    · exact raise_agenda _ _
    · exact dispatcherTurn_agenda _
    · exact resetEvent_agenda _

/-- What is kept by every step is kept along every run. -/
theorem afterSteps_induction {P : State → Prop} (hstep : ∀ s t, P s → step s = .next t → P t) (n : Nat) {s : State}
    (hs : P s) : P (afterSteps n s) := by
  induction n with
  | zero => exact hs
  | succ k ih =>
    rw [afterSteps_succ]
    exact hstep _ _ ih (step_eq_next_afterStep _)

/-- The dispatcher's turn while halting either passes or observes the stop request; it never polls (R247). -/
theorem dispatcherTurn_of_halting {s : State} (hhalt : Halting s) :
    (s.run = false ∧ dispatcherTurn s = s) ∨ dispatcherTurn s = observeStop s := by
  rcases hrun : s.run with _ | _
  · exact .inl ⟨rfl, dispatcherTurn_of_stopped hrun⟩
  · exact .inr (dispatcherTurn_of_stopReq hrun (hhalt.resolve_left (by simp [hrun])))

/-- The dispatcher's turn while halting leaves the block stopped (R247). -/
theorem dispatcherTurn_run_of_halting {s : State} (hhalt : Halting s) : (dispatcherTurn s).run = false := by
  rcases dispatcherTurn_of_halting hhalt with ⟨hrun, hturn⟩ | hturn
  · rw [hturn, hrun]
  · rw [hturn, observeStop_run]

/-- The dispatcher's turn while halting delivers nothing and reads nothing (R311). -/
theorem dispatcherTurn_silent_of_halting {s : State} (hhalt : Halting s) :
    (dispatcherTurn s).trace = s.trace ∧ (dispatcherTurn s).rxReads = s.rxReads := by
  rcases dispatcherTurn_of_halting hhalt with ⟨-, hturn⟩ | hturn <;> simp [hturn]

/-- Only `DSP.START` ends halting: `DSP.STOP` makes a stop pending, and no other operation writes a run flag (R251). -/
theorem exec_halting {i : Instr} {s t : State} (hexec : exec i s = .next t) (hhalt : Halting s)
    (hnoStart : i ≠ .dspStart) : Halting t := by
  rcases exec_flags hexec with hkept | ⟨hstart, -⟩ | ⟨-, -, hstopped⟩
  · obtain ⟨hrun, hstop, -⟩ : t.run = s.run ∧ t.stopReq = s.stopReq ∧ t.dfault = s.dfault := by
      simpa [runFlags] using hkept
    rwa [Halting, hrun, hstop]
  · exact absurd hstart hnoStart
  · exact .inr (congrArg (·.2.1) hstopped)

/-- The block is stopped or stop-pending and no turn to come is a `DSP.START`: the invariant behind R311. -/
structure HaltingForGood (s : State) : Prop where
  halting : Halting s
  noStart : ∀ p, Turn.host p ∈ s.agenda → decode p ≠ .ok .dspStart

/-- Every step keeps the block halting while no `DSP.START` is to come, and the turns to come only get fewer. -/
theorem step_haltingForGood {s t : State} (hs : HaltingForGood s) (h : step s = .next t) : HaltingForGood t where
  halting := by
    obtain ⟨hhalt, hnoStart⟩ := hs
    rcases step_cases h with ⟨-, rfl⟩ | ⟨turn, rest, hagenda, hturn⟩
    · exact hhalt
    · rcases hturn with ⟨p, i, rfl, hdecode, hexec⟩ | ⟨p, e, -, -, rfl⟩ | ⟨-, rfl⟩ | ⟨-, rfl⟩
      · refine exec_halting hexec hhalt ?_
        rintro rfl
        exact hnoStart p (by simp [hagenda]) hdecode
      · exact hhalt
      · exact .inl (dispatcherTurn_run_of_halting hhalt)
      · exact .inl (resetEvent_run _)
  noStart p hp := by
    rw [step_agenda h] at hp
    exact hs.noStart p (List.mem_of_mem_tail hp)

/-- A dispatcher turn taken while halting adds nothing to the history and reads nothing (R311). -/
theorem afterStep_silent_of_halting {s : State} (hhalt : Halting s) (hhead : s.agenda.head? = some .dispatcher) :
    (afterStep s).trace = s.trace ∧ (afterStep s).rxReads = s.rxReads := by
  obtain ⟨rest, hagenda⟩ := List.head?_eq_some_iff.1 hhead
  rw [afterStep_eq (step_dispatcher hagenda)]
  exact dispatcherTurn_silent_of_halting (s := { s with agenda := rest }) hhalt

/-- Settles O55: the invariant `HaltingForGood` holds along the run, and a dispatcher turn taken under it is silent. -/
theorem noPollAfterStop : Obligations.NoPollAfterStop := by
  unfold Obligations.NoPollAfterStop
  intro n s hhalt hnoStart
  have hrun : HaltingForGood (afterSteps n s) :=
    afterSteps_induction (fun _ _ => step_haltingForGood) n ⟨hhalt, hnoStart⟩
  refine ⟨hrun.halting, fun hhead => ?_⟩
  rw [afterSteps_succ]
  exact afterStep_silent_of_halting hrun.halting hhead

end Sys2Proof.Machine
